-- ==== Sys2Proof/Word.lean ====
section
/-! DEFINITION. Word types of the block: registers are 32 bits wide, buffer bytes 8, tag bodies and EtherTypes 16
(00_scope.md R7, R12). -/

namespace Sys2Proof

/-- A register's width, and a command word's (R7, R67). -/
abbrev Word := BitVec 32

/-- A 16-bit quantity: an EtherType, a tag body, a length, half an address register (R7). -/
abbrev Half := BitVec 16

/-- One byte of a buffer (R12, R46). -/
abbrev Byte := BitVec 8

end Sys2Proof
end

