-- ==== Sys2Proof/Config.lean ====
section
/-! DEFINITION. What an implementation fixes (the capacity BUF_CAP) and the values the spec leaves free. -/

namespace Sys2Proof

/-- A legal value of the parameter BUF_CAP: 22 <= BUF_CAP <= 65535 (00_scope.md R6). A machine carries its own in
`State.cap`, so that statements about every state hold for every capacity (log entry 1). -/
structure BufCap where
  n  : Nat
  lo : 22 ≤ n
  hi : n ≤ 65535
deriving DecidableEq, Repr

namespace Config

/-- DESIGN CHOICE (log entry 1): the capacity of the machine `State.reset`. The spec leaves it open (D3); 64 is the
capacity its test vectors use. -/
def resetCap : BufCap := ⟨64, by decide, by decide⟩

/-- DESIGN CHOICE (log entry 2): PENDING in `State.reset`. The spec says unspecified and unobservable (R149, U4). -/
def resetPending : Word := 0

/-- Free value (log entry 5): the `k`-th free 32-bit draw. Raised by a host read of an OPSTATE register while BUSY
(R58 (b), U2) and by PENDING at a reset step (R148, U4). No body: nothing can be proved of it. -/
opaque freeWord : Nat → Word

/-- Free value (log entry 5): the `k`-th free 8-bit draw, for a host BufRead while BUSY (R58 (b), U2) or of a byte
nothing has written since reset (R150, U3). -/
opaque freeByte : Nat → Byte

/-- Free value (log entry 4): what a buffer byte nothing has written holds (R150: unspecified). It stands in the byte
sequence a command is given, at indices the command does not examine; a command that examines one faults first. -/
opaque unwritten : Nat → Byte

end Config
end Sys2Proof
end

