-- ==== Sys2Proof/Syntax.lean ====
section
/-! DEFINITION. The commands: one constructor per row of spec/opcode_table.json (30_encoding.md R69). A command word
carries no operand (R68, R80), so no constructor has a field. -/

namespace Sys2Proof

/-- The four commands of the block (R69). -/
inductive Instr where
  /-- TAG_DECODE, R91. -/
  | tagDecode
  /-- TAG_ENCODE, R92. -/
  | tagEncode
  /-- FRAME_DECODE, R109. -/
  | frameDecode
  /-- FRAME_ENCODE, R110. -/
  | frameEncode
deriving DecidableEq, Repr

end Sys2Proof
end

