-- ==== Sys2Proof/Machine/Bus.lean ====
section
/-! DEFINITION. The host's side of the interface as data: buffers, registers, bus operations, host statements and lines
(20_memory.md R46 to R50; 30_encoding.md R81, R82), and whose turn it is (42_command_lifecycle.md R116). -/

namespace Sys2Proof.Machine

/-- The two byte buffers (R46). -/
inductive Buf where
  | wbuf
  | pbuf
deriving DecidableEq, Repr

/-- The three address spaces (R49). -/
inductive Space where
  | reg
  | buf (b : Buf)
deriving DecidableEq, Repr

/-- The words of the register map (R17). The three unmapped offsets behave alike (R56). -/
inductive Reg where
  | cmd | status | irqEn | caps | wlen | plen | dstHi | dstLo | srcHi | srcLo | etype | ctag | stag
  | unmapped
deriving DecidableEq, Repr

/-- A bus access of the host: the four operations of R50, and the accesses R50 says are none of them. -/
inductive BusOp where
  /-- `RegRead(off)`. -/
  | regRead (off : Nat)
  /-- `RegWrite(off, v)`. -/
  | regWrite (off : Nat) (v : Word)
  /-- `BufRead(S, i)`. -/
  | bufRead (b : Buf) (i : Nat)
  /-- `BufWrite(S, i, x)`. -/
  | bufWrite (b : Buf) (i : Nat) (x : Byte)
  /-- An access of `bits` bits to a space whose accesses have another width (R50, U10): never an operation. -/
  | otherWidth (sp : Space) (bits : Nat)
deriving DecidableEq, Repr

/-- What a host program is made of once its lines are expanded: bus operations, and the poll loop of R82. -/
inductive HostStmt where
  | op (o : BusOp)
  /-- Repeat `rd STATUS` until the value read has bit 0 (BUSY) = 0 (R82). -/
  | wait
deriving DecidableEq, Repr

/-- A line of the host-sequence notation: the four operations (R81) and the pseudo-operations (R82). -/
inductive HostLine where
  | rd (off : Nat)
  | wr (off : Nat) (v : Word)
  | rb (b : Buf) (i : Nat)
  | wbb (b : Buf) (i : Nat) (x : Byte)
  | cmd (c : Instr)
  | wb (b : Buf) (i : Nat) (xs : List Byte)
  | wait
  | run (c : Instr)
deriving DecidableEq, Repr

/-- Which agent takes a step (R116): the host, the engine, or the environment asserting reset (R148). -/
inductive Turn where
  | host
  | engine
  | reset
deriving DecidableEq, Repr

/-- What the host's last bus operation returned (the result column of R50). -/
inductive Reply where
  | none
  | word (v : Word)
  | byte (x : Byte)
deriving DecidableEq, Repr

end Sys2Proof.Machine
end

