-- ==== Sys2Proof/Machine/State.lean ====
section
/-! DEFINITION. The machine's state (10_state.md R16 to R39), the reasons a step can stop, and the state after reset
(70_reset_and_hazards.md R149). -/

namespace Sys2Proof.Machine

/-- The error codes an error completion reports (60_exceptions.md R128). Code 0 (NONE) is the absence of one, and codes
7 to 15 are never produced (U6). -/
inductive ErrCode where
  | frameTooShort
  | malformedTag
  | invalidVlanId
  | inconsistentTagging
  | bufferOverflow
  | illegalCommand
deriving DecidableEq, Repr

/-- The error contexts (R129); value 3 is never produced (U7). -/
inductive ErrCtx where
  | none
  | customer
  | service
deriving DecidableEq, Repr

/-- `Error(code, ctx)`, what a pure function raises (00_scope.md R14). -/
structure CodecError where
  code : ErrCode
  ctx  : ErrCtx
deriving DecidableEq, Repr

/-- STATUS, field by field (R20). Its reserved bits hold nothing (R18). -/
structure Status where
  busy    : Bool
  done    : Bool
  err     : Bool
  errCode : Option ErrCode
  errCtx  : ErrCtx
  viol    : Bool
deriving DecidableEq, Repr

/-- The tag-register format shared by CTAG and STAG (R30). -/
structure TagReg where
  vid     : Half
  pcp     : BitVec 3
  dei     : Bool
  present : Bool
deriving DecidableEq, Repr

/-- A buffer's contents: index and byte, indices strictly rising. A listed byte has its ghost bit `defined` set, an
unlisted one has it clear and reads as nothing (R39, R150; log entry 3). -/
abbrev Memory := List Host.Cell

/-- One instance of the block (R16), with its parameter BUF_CAP, and the model's own account of its surroundings: the
host's program, whose turn it is, the last reply and the count of free values drawn (log entries 5, 6, 7). -/
structure State where
  /-- The parameter BUF_CAP (R6); no step writes it (R148). -/
  cap     : BufCap
  /-- STATUS (R20). -/
  status  : Status
  /-- IRQ_EN.DONE_IE (R21). -/
  irqEn   : Bool
  /-- WLEN.LEN (R23). -/
  wlen    : Half
  /-- PLEN.LEN (R24). -/
  plen    : Half
  /-- DST_HI.ADDR_HI (R25). -/
  dstHi   : Half
  /-- DST_LO.ADDR_LO (R26). -/
  dstLo   : Word
  /-- SRC_HI.ADDR_HI (R27). -/
  srcHi   : Half
  /-- SRC_LO.ADDR_LO (R28). -/
  srcLo   : Word
  /-- ETYPE.ETYPE (R29). -/
  etype   : Half
  /-- CTAG, the customer tag (R31). -/
  ctag    : TagReg
  /-- STAG, the service tag (R32). -/
  stag    : TagReg
  /-- WBUF, the wire buffer (R46). -/
  wbuf    : Memory
  /-- PBUF, the payload buffer (R46). -/
  pbuf    : Memory
  /-- PENDING, the issued command word (R35). -/
  pending : Word
  /-- Model's own: the host's remaining program, in program order (R60). -/
  host    : List HostStmt
  /-- Model's own: who takes each of the coming steps (R116). -/
  turns   : List Turn
  /-- Model's own: what the host's last bus operation returned (R50). -/
  reply   : Reply
  /-- Model's own: how many free values have been drawn. -/
  draws   : Nat
deriving DecidableEq, Repr

/-- Why the machine stops with a fault. -/
inductive Fault where
  /-- Raised by an engine step whose command examines byte `i` of buffer `b`, which nothing has written since reset
  (R39, R150, U3; log entries 3 and 4). Safe: the hardware goes on with an unspecified value. -/
  | undefinedByte (b : Buf) (i : Nat)
deriving DecidableEq, Repr

/-- Why the machine refuses a step. -/
inductive Refusal where
  /-- A command without a meaning yet, by its mnemonic (raised by `exec` only; no arm does). Safe. -/
  | notModelled (mnemonic : String)
  /-- Raised by a host register access whose offset is no multiple of 4 or is above 0x3C: no operation of the interface
  (R50, U10). Safe. -/
  | badRegisterOffset (off : Nat)
  /-- Raised by a host buffer access whose index is above 65535: no operation of the interface (R50). Safe. -/
  | badBufferIndex (b : Buf) (i : Nat)
  /-- Raised by a host access of a width the space does not have: no operation of the interface (R50, U10). Safe. -/
  | badAccessWidth (sp : Space) (bits : Nat)
deriving DecidableEq, Repr

/-- STATUS after reset: 0x00000000 (R149). -/
def Status.reset : Status :=
  { busy := false, done := false, err := false, errCode := none, errCtx := .none, viol := false }

/-- CTAG and STAG after reset: 0x00000000, absent (R31, R32). -/
def TagReg.zero : TagReg := { vid := 0, pcp := 0, dei := false, present := false }

/-- A machine of capacity `cap` right after reset (R149): every mapped register at its reset value, no buffer byte
defined (R150), PENDING at the value of log entry 2, and nothing scheduled (log entry 6). -/
def State.resetWith (cap : BufCap) : State :=
  { cap := cap, status := Status.reset, irqEn := false, wlen := 0, plen := 0, dstHi := 0, dstLo := 0, srcHi := 0,
    srcLo := 0, etype := 0, ctag := TagReg.zero, stag := TagReg.zero, wbuf := [], pbuf := [],
    pending := Config.resetPending, host := [], turns := [], reply := .none, draws := 0 }

/-- The machine right after reset, at the capacity of log entry 1. -/
def State.reset : State := State.resetWith Config.resetCap

end Sys2Proof.Machine
end

