-- ==== Sys2Proof/Machine/Flags.lean ====
section
/-! DEFINITION. STATUS: its bits as software reads them, and each way it changes (10_state.md R20;
42_command_lifecycle.md R117, R119; 60_exceptions.md R128 to R130), and the interrupt output (R36). -/

namespace Sys2Proof.Machine

/-- A flag as a one-bit field at bit 0 of a word. -/
def bit (b : Bool) : Word := if b then 1 else 0

/-- STATUS.ERRCODE of a code, 0 when there is none (R128). -/
def errCodeBits (c : Option ErrCode) : BitVec 4 :=
  match c with
  | none => 0
  | some .frameTooShort => 1
  | some .malformedTag => 2
  | some .invalidVlanId => 3
  | some .inconsistentTagging => 4
  | some .bufferOverflow => 5
  | some .illegalCommand => 6

/-- STATUS.ERRCTX of a context (R129). -/
def errCtxBits (c : ErrCtx) : BitVec 2 :=
  match c with
  | .none => 0
  | .customer => 1
  | .service => 2

/-- STATUS as a 32-bit word: VIOL at 16, ERRCTX at 9:8, ERRCODE at 7:4, ERR at 2, DONE at 1, BUSY at 0, zero elsewhere
(R20). -/
def Status.word (st : Status) : Word :=
  (bit st.viol <<< 16) ||| ((errCtxBits st.errCtx).setWidth 32 <<< 8) ||| ((errCodeBits st.errCode).setWidth 32 <<< 4) |||
    (bit st.err <<< 2) ||| (bit st.done <<< 1) ||| bit st.busy

/-- A command issue: BUSY set, DONE and the error report cleared, VIOL kept (R117, D32). -/
def Status.issue (st : Status) : Status :=
  { st with busy := true, done := false, err := false, errCode := none, errCtx := .none }

/-- Successful completion: BUSY cleared, DONE set. The error report stays as the issue left it (R119; log entry 13). -/
def Status.succeed (st : Status) : Status :=
  { st with busy := false, done := true }

/-- Error completion (R130): VIOL unchanged. -/
def Status.fail (st : Status) (e : CodecError) : Status :=
  { st with busy := false, done := true, err := true, errCode := some e.code, errCtx := e.ctx }

/-- A host write dropped under R57 or R58: VIOL set. -/
def Status.violate (st : Status) : Status := { st with viol := true }

/-- A host write of `v` to STATUS: bit 1 clears DONE, bit 16 clears VIOL, every other bit is ignored (R20). -/
def Status.writeOneToClear (st : Status) (v : Word) : Status :=
  { st with done := st.done && !v.getLsbD 1, viol := st.viol && !v.getLsbD 16 }

/-- The interrupt output: `irq = STATUS.DONE AND IRQ_EN.DONE_IE`, a level (R36, R141). -/
def State.irq (s : State) : Bool := s.status.done && s.irqEn

end Sys2Proof.Machine
end

