-- ==== Sys2Proof/Machine/Ops.lean ====
section
/-! DEFINITION. The named operations over buffers and the command lifecycle: reading and writing buffer bytes
(00_scope.md R13; 20_memory.md R46), issue (R117), completion (R119), and the error completion every error shares
(60_exceptions.md R130, R138). -/

namespace Sys2Proof.Machine

/-- Byte `a` of a buffer, or nothing where no byte has been written (R39). -/
def Memory.read (m : Memory) (a : Nat) : Option Byte :=
  match m with
  | [] => none
  | (k, x) :: m => if k = a then some x else Memory.read m a

/-- Sets byte `a`, keeping the indices strictly rising. -/
def Memory.write (m : Memory) (a : Nat) (x : Byte) : Memory :=
  match m with
  | [] => [(a, x)]
  | (k, y) :: m =>
    if a < k then (a, x) :: (k, y) :: m
    else if a = k then (a, x) :: m
    else (k, y) :: Memory.write m a x

/-- `MemWrite(S, a, n, bs)` with `n = len(bs)` (R13). -/
def Memory.writeBytes (m : Memory) (a : Nat) (bs : List Byte) : Memory :=
  match bs with
  | [] => m
  | x :: bs => Memory.writeBytes (Memory.write m a x) (a + 1) bs

/-- Every listed index is at least `lo`, and indices rise strictly. -/
def Memory.risingFrom (lo : Nat) (m : Memory) : Bool :=
  match m with
  | [] => true
  | (k, _) :: m => decide (lo ≤ k) && Memory.risingFrom (k + 1) m

/-- The canonical form: indices strictly rising. An unlisted byte reads as nothing, so no listed byte can equal what an
unlisted one reads as. -/
def Memory.wf (m : Memory) : Bool := Memory.risingFrom 0 m

/-- Every listed index is below the capacity (R46). -/
def Memory.below (m : Memory) (n : Nat) : Bool := m.all (fun c => decide (c.1 < n))

/-- `MemRead(S, a, n)` (R13). A byte nothing has written stands as a free value, which no command lets reach its result:
a command that examines such a byte faults instead (log entry 4). -/
def Memory.bytes (m : Memory) (a n : Nat) : List Byte :=
  match n with
  | 0 => []
  | n + 1 => (Memory.read m a).getD (Config.unwritten a) :: Memory.bytes m (a + 1) n

/-- The first of the given indices whose ghost bit `defined` is clear (R39). -/
def Memory.firstUndefined (m : Memory) (is : List Nat) : Option Nat :=
  is.find? (fun i => (Memory.read m i).isNone)

/-- The contents of buffer `b`. -/
def State.buf (s : State) (b : Buf) : Memory :=
  match b with
  | .wbuf => s.wbuf
  | .pbuf => s.pbuf

/-- `s` with the contents of buffer `b` replaced. -/
def State.setBuf (s : State) (b : Buf) (m : Memory) : State :=
  match b with
  | .wbuf => { s with wbuf := m }
  | .pbuf => { s with pbuf := m }

/-- Command issue (R117): the word is latched into PENDING and STATUS says a command is in progress. -/
def issue (s : State) (v : Word) : State := { s with pending := v, status := s.status.issue }

/-- Successful completion, given the state that holds the command's writes (R119). -/
def succeed (s : State) : State := { s with status := s.status.succeed }

/-- Error completion, the block's whole "trap entry" (R130): only STATUS changes. There is no return operation: the block
is idle afterwards and the next issue clears the report (R139). -/
def raiseError (s : State) (e : CodecError) : State := { s with status := s.status.fail e }

/-- How a command begun in `s` completes, given its writes or the error it raised: all of the writes, or none of them
(R14, R120, R138). -/
def complete (s : State) (r : Except CodecError State) : State :=
  match r with
  | .ok t => succeed t
  | .error e => raiseError s e

/-- The guard of a command that examines the bytes `is` of buffer `b`: it faults if one of them was never written
(R150, U3), and otherwise completes with `r`. -/
def examine (s : State) (b : Buf) (is : List Nat) (r : Except CodecError State) : Host.Outcome State Fault Refusal :=
  match Memory.firstUndefined (s.buf b) is with
  | some i => .fault (.undefinedByte b i)
  | none => .next (complete s r)

end Sys2Proof.Machine
end

