-- ==== Sys2Proof/Machine/Operands.lean ====
section
/-! DEFINITION. Byte order (00_scope.md R12), the values commands work on (R8, R9), how registers hold them (10_state.md
R25 to R34), and the register map as the host sees it (R17 to R32). -/

namespace Sys2Proof.Machine

/-- `be16(x, y) = (x << 8) | y`: the first byte is the more significant (R12). -/
def be16 (x y : Byte) : Half := (x.setWidth 16 <<< 8) ||| y.setWidth 16

/-- `be32(w, x, y, z) = (w << 24) | (x << 16) | (y << 8) | z` (R12). -/
def be32 (w x y z : Byte) : Word :=
  (w.setWidth 32 <<< 24) ||| (x.setWidth 32 <<< 16) ||| (y.setWidth 32 <<< 8) ||| z.setWidth 32

/-- `bytes16(v) = [v[15:8], v[7:0]]` (R12). -/
def bytes16 (v : Half) : List Byte := [v.extractLsb' 8 8, v.extractLsb' 0 8]

/-- `b[i]` of a byte sequence (R12), for `i < len(b)`; every use is guarded by a length check. -/
def byteAt (b : List Byte) (i : Nat) : Byte := b.getD i 0

/-- `b[i:j)` of a byte sequence (R12). -/
def slice (b : List Byte) (i j : Nat) : List Byte := (b.drop i).take (j - i)

/-- A hardware address: six bytes, in wire order (R7, R9). -/
structure HwAddr where
  b0 : Byte
  b1 : Byte
  b2 : Byte
  b3 : Byte
  b4 : Byte
  b5 : Byte
deriving DecidableEq, Repr

/-- A VlanTag value; `vid` is carried in 16 bits, so it can hold an invalid 4096 to 65535 (R8). -/
structure VlanTag where
  pcp : BitVec 3
  dei : Bool
  vid : Half
deriving DecidableEq, Repr

/-- A Frame value (R9). -/
structure Frame where
  dst     : HwAddr
  src     : HwAddr
  ctag    : Option VlanTag
  stag    : Option VlanTag
  etype   : Half
  payload : List Byte
deriving DecidableEq, Repr

/-- The bytes of an address, in wire order. -/
def HwAddr.bytes (a : HwAddr) : List Byte := [a.b0, a.b1, a.b2, a.b3, a.b4, a.b5]

/-- The address at `b[i:i+6)`. -/
def addrAt (b : List Byte) (i : Nat) : HwAddr :=
  { b0 := byteAt b i, b1 := byteAt b (i + 1), b2 := byteAt b (i + 2), b3 := byteAt b (i + 3),
    b4 := byteAt b (i + 4), b5 := byteAt b (i + 5) }

/-- The address held by a pair of address registers: `bytes16(HI) ++ bytes32(LO)` (R33). -/
def regAddr (hi : Half) (lo : Word) : HwAddr :=
  { b0 := hi.extractLsb' 8 8, b1 := hi.extractLsb' 0 8, b2 := lo.extractLsb' 24 8, b3 := lo.extractLsb' 16 8,
    b4 := lo.extractLsb' 8 8, b5 := lo.extractLsb' 0 8 }

/-- ADDR_HI of an address (R25, R27). -/
def HwAddr.hi (a : HwAddr) : Half := be16 a.b0 a.b1

/-- ADDR_LO of an address (R26, R28). -/
def HwAddr.lo (a : HwAddr) : Word := be32 a.b2 a.b3 a.b4 a.b5

/-- The PCP, DEI and VID fields of a tag register, whatever its PRESENT bit (R92). -/
def TagReg.tag (t : TagReg) : VlanTag := { pcp := t.pcp, dei := t.dei, vid := t.vid }

/-- `regTag(T)`: the tag a register holds, if PRESENT = 1 (R33). -/
def regTag (t : TagReg) : Option VlanTag := if t.present then some t.tag else none

/-- `tagReg(t)`: an absent tag is the all-zero register (R34). -/
def tagReg (t : Option VlanTag) : TagReg :=
  match t with
  | none => TagReg.zero
  | some t => { vid := t.vid, pcp := t.pcp, dei := t.dei, present := true }

/-- `regFrame()` (R33). -/
def regFrame (s : State) : Frame :=
  { dst := regAddr s.dstHi s.dstLo, src := regAddr s.srcHi s.srcLo, ctag := regTag s.ctag, stag := regTag s.stag,
    etype := s.etype, payload := Memory.bytes s.pbuf 0 s.plen.toNat }

/-- `writeFrame(f)` (R34). PBUF bytes at or above the payload's length stay. -/
def writeFrame (s : State) (f : Frame) : State :=
  { s with
    dstHi := f.dst.hi, dstLo := f.dst.lo, srcHi := f.src.hi, srcLo := f.src.lo, etype := f.etype,
    ctag := tagReg f.ctag, stag := tagReg f.stag, plen := BitVec.ofNat 16 f.payload.length,
    pbuf := Memory.writeBytes s.pbuf 0 f.payload }

/-- A tag register as a word: PRESENT at 31, DEI at 19, PCP at 18:16, VID at 15:0, zero elsewhere (R30, R34). -/
def TagReg.word (t : TagReg) : Word :=
  (bit t.present <<< 31) ||| (bit t.dei <<< 19) ||| (t.pcp.setWidth 32 <<< 16) ||| t.vid.setWidth 32

/-- A tag register after a host write of `v`: the named fields take `v`'s bits, the reserved bits are ignored (R18). -/
def TagReg.ofWord (v : Word) : TagReg :=
  { vid := v.extractLsb' 0 16, pcp := v.extractLsb' 16 3, dei := v.getLsbD 19, present := v.getLsbD 31 }

/-- CAPS: VERSION 0x01 in bits 23:16, BUF_CAP in bits 15:0 (R22). -/
def capsWord (cap : BufCap) : Word := (0x01#32 <<< 16) ||| BitVec.ofNat 32 cap.n

/-- The register at a byte offset (R17), or nothing where the offset is none of the interface (R50). -/
def regAt (off : Nat) : Option Reg :=
  match off with
  | 0x00 => some .cmd
  | 0x04 => some .status
  | 0x08 => some .irqEn
  | 0x0C => some .caps
  | 0x10 => some .wlen
  | 0x14 => some .plen
  | 0x18 => some .dstHi
  | 0x1C => some .dstLo
  | 0x20 => some .srcHi
  | 0x24 => some .srcLo
  | 0x28 => some .etype
  | 0x2C => some .ctag
  | 0x30 => some .stag
  | 0x34 => some .unmapped
  | 0x38 => some .unmapped
  | 0x3C => some .unmapped
  | _ => none

/-- The registers of OPSTATE (R37). -/
def Reg.isOperand (r : Reg) : Bool :=
  match r with
  | .wlen | .plen | .dstHi | .dstLo | .srcHi | .srcLo | .etype | .ctag | .stag => true
  | .cmd | .status | .irqEn | .caps | .unmapped => false

/-- What a register reads as: its fields, zero-extended (R18); CMD and the unmapped offsets read 0 (R19, R56). -/
def Reg.value (r : Reg) (s : State) : Word :=
  match r with
  | .cmd => 0
  | .status => s.status.word
  | .irqEn => bit s.irqEn
  | .caps => capsWord s.cap
  | .wlen => s.wlen.setWidth 32
  | .plen => s.plen.setWidth 32
  | .dstHi => s.dstHi.setWidth 32
  | .dstLo => s.dstLo
  | .srcHi => s.srcHi.setWidth 32
  | .srcLo => s.srcLo
  | .etype => s.etype.setWidth 32
  | .ctag => s.ctag.word
  | .stag => s.stag.word
  | .unmapped => 0

/-- The effect of a host write the block accepts (R51): CMD issues (R117), STATUS is write-1-to-clear (R20), CAPS and the
unmapped offsets ignore it (R56), every other register takes its fields' bits (R18). -/
def Reg.store (r : Reg) (v : Word) (s : State) : State :=
  match r with
  | .cmd => issue s v
  | .status => { s with status := s.status.writeOneToClear v }
  | .irqEn => { s with irqEn := v.getLsbD 0 }
  | .caps => s
  | .wlen => { s with wlen := v.extractLsb' 0 16 }
  | .plen => { s with plen := v.extractLsb' 0 16 }
  | .dstHi => { s with dstHi := v.extractLsb' 0 16 }
  | .dstLo => { s with dstLo := v }
  | .srcHi => { s with srcHi := v.extractLsb' 0 16 }
  | .srcLo => { s with srcLo := v }
  | .etype => { s with etype := v.extractLsb' 0 16 }
  | .ctag => { s with ctag := TagReg.ofWord v }
  | .stag => { s with stag := TagReg.ofWord v }
  | .unmapped => s

end Sys2Proof.Machine
end

