-- ==== Sys2Proof/Machine/Tag.lean ====
section
/-! DEFINITION. The VlanTag codec (40_vlan_tag_ops.md): tagDecode (R87), tagEncode (R88), and the commands TAG_DECODE
(R91) and TAG_ENCODE (R92). -/

namespace Sys2Proof.Machine

/-- `VIDMax`, the largest valid VLAN ID (R8). -/
abbrev vidMax : Nat := 4095

/-- `tagDecode(b, ctx)` (R87), with the bit formulas of R73. The VID check is kept though no input reaches it (R89). -/
def tagDecode (b : List Byte) (ctx : ErrCtx) : Except CodecError VlanTag :=
  match b with
  | [b0, b1] =>
    let num := be16 b0 b1
    let t : VlanTag := { pcp := (num >>> 13).setWidth 3, dei := (num &&& 0x1000#16) != 0, vid := num &&& 0x0FFF#16 }
    if vidMax < t.vid.toNat then .error ⟨.invalidVlanId, ctx⟩ else .ok t
  | _ => .error ⟨.malformedTag, ctx⟩

/-- `tagEncode(t, ctx)` (R88): the VID is checked before any bit is packed (R74). -/
def tagEncode (t : VlanTag) (ctx : ErrCtx) : Except CodecError (List Byte) :=
  if vidMax < t.vid.toNat then .error ⟨.invalidVlanId, ctx⟩
  else
    let num : Half := (t.pcp.setWidth 16 <<< 13) ||| ((if t.dei then 1#16 else 0#16) <<< 12) ||| t.vid
    .ok (bytes16 num)

/-- The WBUF bytes TAG_DECODE examines when WLEN = `n`: the two of a tag body, none of a malformed one (R91: "WBUF bytes
at index >= 2 are not read"; log entry 4). -/
def tagBytesExamined (n : Nat) : List Nat := if n = 2 then [0, 1] else []

/-- TAG_DECODE (R91). -/
def execTagDecode (s : State) : Host.Outcome State Fault Refusal :=
  let n := s.wlen.toNat
  if s.cap.n < n then .next (raiseError s ⟨.bufferOverflow, .none⟩)
  else examine s .wbuf (tagBytesExamined n) (do
    let t ← tagDecode (Memory.bytes s.wbuf 0 n) .none
    return { s with ctag := tagReg (some t) })

/-- TAG_ENCODE (R92): CTAG.PRESENT is ignored. -/
def execTagEncode (s : State) : Host.Outcome State Fault Refusal :=
  .next (complete s (do
    let bs ← tagEncode s.ctag.tag .none
    return { s with wbuf := Memory.writeBytes s.wbuf 0 bs, wlen := 2 }))

end Sys2Proof.Machine
end

