-- ==== Sys2Proof/Machine/Frame.lean ====
section
/-! DEFINITION. The Frame codec (41_frame_ops.md): frameDecode (R97 to R103), frameLength (R104), frameEncode (R105 to
R108), and the commands FRAME_DECODE (R109) and FRAME_ENCODE (R110). -/

namespace Sys2Proof.Machine

/-- The 802.1Q TPID (R75). -/
def tpidCustomer : Half := 0x8100

/-- The QinQ TPID (R75). -/
def tpidService : Half := 0x88A8

/-- The value at wire offset 12, which alone selects the layout (R75, R79). -/
def candidate (b : List Byte) : Half := be16 (byteAt b 12) (byteAt b 13)

/-- `frameDecode(b)` (R97): one dispatch on the candidate (R101), QinQ in one step with `b[16:18)` ignored (R99). -/
def frameDecode (b : List Byte) : Except CodecError Frame :=
  let n := b.length
  if n < 14 then .error ⟨.frameTooShort, .none⟩
  else if candidate b = tpidCustomer then
    if n < 18 then .error ⟨.frameTooShort, .customer⟩
    else do
      let t ← tagDecode (slice b 14 16) .customer
      return { dst := addrAt b 0, src := addrAt b 6, ctag := some t, stag := none,
               etype := be16 (byteAt b 16) (byteAt b 17), payload := slice b 18 n }
  else if candidate b = tpidService then
    if n < 22 then .error ⟨.frameTooShort, .service⟩
    else do
      let st ← tagDecode (slice b 14 16) .service
      let ct ← tagDecode (slice b 18 20) .customer
      return { dst := addrAt b 0, src := addrAt b 6, ctag := some ct, stag := some st,
               etype := be16 (byteAt b 20) (byteAt b 21), payload := slice b 22 n }
  else
    return { dst := addrAt b 0, src := addrAt b 6, ctag := none, stag := none,
             etype := candidate b, payload := slice b 14 n }

/-- The octets one tag adds to a header: its TPID and its body (R104). -/
def tagLength (t : Option VlanTag) : Nat := if t.isSome then 4 else 0

/-- `frameLength(f)`, on unbounded naturals so that it cannot wrap (R104). -/
def frameLength (f : Frame) : Nat := 14 + tagLength f.stag + tagLength f.ctag + f.payload.length

/-- The TPID and body of a tag on the wire; nothing for an absent one (R105). An absent tag is not checked (R106). -/
def tagBytes (tpid : Half) (t : Option VlanTag) (ctx : ErrCtx) : Except CodecError (List Byte) :=
  match t with
  | none => .ok []
  | some t => do
    let body ← tagEncode t ctx
    return bytes16 tpid ++ body

/-- `frameEncode(f)` (R105): tagging is checked first (R107), then the service tag, then the customer tag (R106). -/
def frameEncode (f : Frame) : Except CodecError (List Byte) :=
  if f.stag.isSome ∧ f.ctag.isNone then .error ⟨.inconsistentTagging, .none⟩
  else do
    let sb ← tagBytes tpidService f.stag .service
    let cb ← tagBytes tpidCustomer f.ctag .customer
    return f.dst.bytes ++ f.src.bytes ++ sb ++ cb ++ bytes16 f.etype ++ f.payload

/-- The WBUF bytes FRAME_DECODE examines, given the byte sequence `b` in WBUF[0:WLEN): none of one too short to hold a
TPID, only the TPID of one too short for its tag depth, and all of any other but the inner TPID of a QinQ frame (R97:
"b[16:18) is not read"; R98, R99; log entry 4). -/
def frameBytesExamined (b : List Byte) : List Nat :=
  let n := b.length
  if n < 14 then []
  else if candidate b = tpidCustomer ∧ n < 18 then [12, 13]
  else if candidate b = tpidService then
    if n < 22 then [12, 13] else List.range 16 ++ List.range' 18 (n - 18)
  else List.range n

/-- FRAME_DECODE (R109). -/
def execFrameDecode (s : State) : Host.Outcome State Fault Refusal :=
  let n := s.wlen.toNat
  if s.cap.n < n then .next (raiseError s ⟨.bufferOverflow, .none⟩)
  else
    let b := Memory.bytes s.wbuf 0 n
    examine s .wbuf (frameBytesExamined b) (do
      let f ← frameDecode b
      return writeFrame s f)

/-- The length of the frame the registers hold, PBUF unread (R104, R110). -/
def regFrameLength (s : State) : Nat :=
  14 + tagLength (regTag s.stag) + tagLength (regTag s.ctag) + s.plen.toNat

/-- The checks of FRAME_ENCODE, in its order: frameEncode's own on the register fields, then the capacity (R110, R137). -/
def frameEncodeChecks (s : State) : Except CodecError Unit :=
  if s.stag.present ∧ ¬ s.ctag.present then .error ⟨.inconsistentTagging, .none⟩
  else if s.stag.present ∧ vidMax < s.stag.vid.toNat then .error ⟨.invalidVlanId, .service⟩
  else if s.ctag.present ∧ vidMax < s.ctag.vid.toNat then .error ⟨.invalidVlanId, .customer⟩
  else if s.cap.n < regFrameLength s then .error ⟨.bufferOverflow, .none⟩
  else .ok ()

/-- FRAME_ENCODE (R110). PBUF is examined below PLEN, and only once every check has passed. -/
def execFrameEncode (s : State) : Host.Outcome State Fault Refusal :=
  match frameEncodeChecks s with
  | .error e => .next (raiseError s e)
  | .ok _ => examine s .pbuf (List.range s.plen.toNat) (do
      let out ← frameEncode (regFrame s)
      return { s with wbuf := Memory.writeBytes s.wbuf 0 out, wlen := BitVec.ofNat 16 (regFrameLength s) })

end Sys2Proof.Machine
end

