-- ==== Sys2Proof/Machine/Dispatch.lean ====
section
/-! DEFINITION. What each command does: one arm per constructor (42_command_lifecycle.md R124). -/

namespace Sys2Proof.Machine

/-- The body of an engine step for a legal command (R118, R124). -/
def exec (i : Instr) (s : State) : Host.Outcome State Fault Refusal :=
  match i with
  | .tagDecode => Sys2Proof.Machine.execTagDecode s
  | .tagEncode => Sys2Proof.Machine.execTagEncode s
  | .frameDecode => Sys2Proof.Machine.execFrameDecode s
  | .frameEncode => Sys2Proof.Machine.execFrameEncode s

end Sys2Proof.Machine
end

