-- ==== Sys2Proof/Decode.lean ====
section
/-! DEFINITION. Command words: the decoder of 30_encoding.md R71, and the encoder from R68 and R69. -/

namespace Sys2Proof

/-- R71: a command word is matched as a whole (mask 0xFFFFFFFF); every other word is illegal (R70). -/
def decodeCmd (w : Word) : Option Instr :=
  match w with
  | 0x00000001#32 => some .tagDecode
  | 0x00000002#32 => some .tagEncode
  | 0x00000003#32 => some .frameDecode
  | 0x00000004#32 => some .frameEncode
  | _ => none

/-- R69: the field OP (bits 3:0) of each command. -/
def opField (i : Instr) : BitVec 4 :=
  match i with
  | .tagDecode => 1
  | .tagEncode => 2
  | .frameDecode => 3
  | .frameEncode => 4

/-- R68: OP in bits 3:0, bits 31:4 zero. -/
def encode (i : Instr) : Word := (opField i).setWidth 32

/-- The command the decoder reads from a table row's bits: a command word is one 32-bit value, so the bits above `nbits`
are 0 and a value that does not fit 32 bits is no command word (R67). -/
def decodeTableWord (nbits w : Nat) : Option Instr :=
  let v := w % 2 ^ nbits
  if v < 2 ^ 32 then decodeCmd (BitVec.ofNat 32 v) else none

end Sys2Proof
end

