-- ==== Sys2Proof/WellFormed.lean ====
section
/-! DEFINITION. What a well-formed term is. A command carries no operand, so every command is well formed (30_encoding.md
R68, R80). The checks are on the host's bus operations (20_memory.md R50). -/

namespace Sys2Proof

/-- Every constructor is well formed: no field of a command word is an operand (R68). -/
def Instr.wf (i : Instr) : Bool :=
  match i with
  | .tagDecode => true
  | .tagEncode => true
  | .frameDecode => true
  | .frameEncode => true

namespace Machine

/-- A register offset of the interface: a multiple of 4, at most 0x3C (R48, R50). -/
def offsetOk (off : Nat) : Bool := off % 4 == 0 && off ≤ 0x3C

/-- A buffer index of the interface: 0 to 65535 (R50), whether or not it is below BUF_CAP (R57). -/
def indexOk (i : Nat) : Bool := i ≤ 65535

/-- One of the four operations of R50, with arguments in their ranges. -/
def BusOp.wf (o : BusOp) : Bool :=
  match o with
  | .regRead off => offsetOk off
  | .regWrite off _ => offsetOk off
  | .bufRead _ i => indexOk i
  | .bufWrite _ i _ => indexOk i
  | .otherWidth _ _ => false

/-- A host statement whose bus operation is one. -/
def HostStmt.wf (h : HostStmt) : Bool :=
  match h with
  | .op o => o.wf
  | .wait => true

end Machine
end Sys2Proof
end

