-- ==== Sys2Proof/Machine/Host.lean ====
section
/-! DEFINITION. The host agent: the bus operations (20_memory.md R50 to R58), the poll loop, and the host-sequence notation
(30_encoding.md R81, R82). -/

namespace Sys2Proof.Machine

/-- A host write is dropped: nothing it would have written changes, and STATUS.VIOL is set (R57, R58 (a)). -/
def dropWrite (s : State) : State := { s with status := s.status.violate, reply := .none }

/-- `RegRead` of a register: its value, or a free word for an OPSTATE register while BUSY (R51, R58 (b); log entry 5). -/
def readReg (r : Reg) (s : State) : State :=
  if s.status.busy ∧ r.isOperand then { s with reply := .word (Config.freeWord s.draws), draws := s.draws + 1 }
  else { s with reply := .word (r.value s) }

/-- `RegWrite` to a register: dropped for CMD and OPSTATE while BUSY (R58 (a)), otherwise its effect (R51). -/
def writeReg (r : Reg) (v : Word) (s : State) : State :=
  if s.status.busy ∧ (r.isOperand ∨ r = .cmd) then dropWrite s
  else { r.store v s with reply := .none }

/-- `BufRead(S, i)`: 0 at or above BUF_CAP (R57); below it, a free byte while BUSY (R58 (b)) or where nothing has been
written since reset (R150, U3), and otherwise the byte (R51; log entry 5). -/
def readBuf (b : Buf) (i : Nat) (s : State) : State :=
  if s.cap.n ≤ i then { s with reply := .byte 0 }
  else if s.status.busy then { s with reply := .byte (Config.freeByte s.draws), draws := s.draws + 1 }
  else
    match Memory.read (s.buf b) i with
    | some x => { s with reply := .byte x }
    | none => { s with reply := .byte (Config.freeByte s.draws), draws := s.draws + 1 }

/-- `BufWrite(S, i, x)`: dropped at or above BUF_CAP (R57) and while BUSY (R58 (a)), otherwise the byte is set (R51). -/
def writeBuf (b : Buf) (i : Nat) (x : Byte) (s : State) : State :=
  if s.status.busy ∨ s.cap.n ≤ i then dropWrite s
  else { s.setBuf b (Memory.write (s.buf b) i x) with reply := .none }

/-- One bus operation, one atomic step (R50, R55); what is none of the interface is refused by name (R50, U10). -/
def busOp (o : BusOp) (s : State) : Host.Outcome State Fault Refusal :=
  match o with
  | .regRead off =>
    match regAt off with
    | some r => .next (readReg r s)
    | none => .refused (.badRegisterOffset off)
  | .regWrite off v =>
    match regAt off with
    | some r => .next (writeReg r v s)
    | none => .refused (.badRegisterOffset off)
  | .bufRead b i => if indexOk i then .next (readBuf b i s) else .refused (.badBufferIndex b i)
  | .bufWrite b i x => if indexOk i then .next (writeBuf b i x s) else .refused (.badBufferIndex b i)
  | .otherWidth sp bits => .refused (.badAccessWidth sp bits)

/-- The host's step: its next statement. `wait` reads STATUS once a step and is over when the value has BUSY = 0 (R82; log
entry 10). A host with no statement left does nothing (log entry 6). -/
def hostStep (s : State) : Host.Outcome State Fault Refusal :=
  match s.host with
  | [] => .next s
  | .op o :: rest => busOp o { s with host := rest }
  | .wait :: rest => if s.status.busy then .next (readReg .status s) else .next (readReg .status { s with host := rest })

/-- The writes `wb S, I, X0 X1 … Xk` stands for: consecutive indices (R82). -/
def expandBytes (b : Buf) (i : Nat) (xs : List Byte) : List HostStmt :=
  match xs with
  | [] => []
  | x :: xs => .op (.bufWrite b i x) :: expandBytes b (i + 1) xs

/-- A line of the host-sequence notation, expanded (R81, R82). -/
def HostLine.expand (l : HostLine) : List HostStmt :=
  match l with
  | .rd off => [.op (.regRead off)]
  | .wr off v => [.op (.regWrite off v)]
  | .rb b i => [.op (.bufRead b i)]
  | .wbb b i x => [.op (.bufWrite b i x)]
  | .cmd c => [.op (.regWrite 0x00 (encode c))]
  | .wb b i xs => expandBytes b i xs
  | .wait => [.wait]
  | .run c => [.op (.regWrite 0x00 (encode c)), .wait]

/-- A host program (R81, R82). -/
def assemble (ls : List HostLine) : List HostStmt := ls.flatMap HostLine.expand

end Sys2Proof.Machine
end

