-- ==== Sys2Proof/Machine/Engine.lean ====
section
/-! DEFINITION. The engine's step (42_command_lifecycle.md R118, R121), the reset step (70_reset_and_hazards.md R148), and
whose turn it is (R116). -/

namespace Sys2Proof.Machine

/-- The engine step on the word in PENDING: the command it decodes to, or ILLEGAL_COMMAND (R118, R121, R124). -/
def engineCommand (s : State) : Host.Outcome State Fault Refusal :=
  match decodeCmd s.pending with
  | some i => exec i s
  | none => .next (raiseError s ⟨.illegalCommand, .none⟩)

/-- The engine's turn: its step is enabled exactly when BUSY = 1 (R116, R118); a turn it cannot use passes (log entry 6). -/
def engineStep (s : State) : Host.Outcome State Fault Refusal :=
  if s.status.busy then engineCommand s else .next s

/-- Reset (R148): every mapped register at its reset value, PENDING a free value, no buffer byte defined, BUF_CAP kept. What
is not the block's (the host's program, the turns, the last reply, the count of draws) is untouched (log entry 8). -/
def resetStep (s : State) : State :=
  { State.resetWith s.cap with
    pending := Config.freeWord s.draws, host := s.host, turns := s.turns, reply := s.reply, draws := s.draws + 1 }

/-- One step: the agent whose turn it is moves. When no turn is given, the engine moves if it can and the host otherwise
(R116, R122; log entry 6). -/
def takeTurn (s : State) : Host.Outcome State Fault Refusal :=
  match s.turns with
  | .host :: ts => hostStep { s with turns := ts }
  | .engine :: ts => engineStep { s with turns := ts }
  | .reset :: ts => .next (resetStep { s with turns := ts })
  | [] => if s.status.busy then engineStep s else hostStep s

end Sys2Proof.Machine
end

