-- ==== Sys2Proof/Machine/Step.lean ====
section
/-! DEFINITION. One step of the machine, and placing a command word where the next step runs it. -/

namespace Sys2Proof.Machine

/-- One step (R116). -/
def step (s : State) : Host.Outcome State Fault Refusal := takeTurn s

/-- `s` with the command word of a table row issued (R117: latched into PENDING, BUSY set) and the engine's turn next, so
that the next step runs exactly it. It stands for the host's write to CMD (log entry 6). -/
def State.withFetchWord (s : State) (nbits w : Nat) : State :=
  { issue s (BitVec.ofNat 32 (w % 2 ^ nbits)) with turns := .engine :: s.turns }

end Sys2Proof.Machine
end

