-- ==== Sys2Proof/Safety.lean ====
section
/-! DEFINITION. The terms claims are stated in: the invariant of the machine, the operand state, agreement of two states,
and how a command's completion looks. -/

namespace Sys2Proof.Machine

/-- The invariants of STATUS: BUSY = 1 implies DONE = 0, ERR = 0, ERRCODE = 0 and ERRCTX = 0, and ERR = 0 if and only if
ERRCODE = 0 (10_state.md R20); ERRCTX is 0 when ERR = 0 (R20), and names a tag only for the two errors that can have one
(60_exceptions.md R129). -/
structure Status.Inv (st : Status) : Prop where
  busy_clears : st.busy = true → st.done = false ∧ st.err = false
  code_iff    : st.err = false ↔ st.errCode = none
  ctx_none    : st.err = false → st.errCtx = .none
  ctx_tagged  : st.errCtx ≠ .none → st.errCode = some .frameTooShort ∨ st.errCode = some .invalidVlanId

/-- What every reachable state satisfies: STATUS as above, both buffers in canonical form (a definedness bit per index and
no index twice), and no byte at or above BUF_CAP (20_memory.md R46, R57, R59). -/
structure State.Inv (s : State) : Prop where
  status     : s.status.Inv
  wbuf_wf    : Memory.wf s.wbuf = true
  pbuf_wf    : Memory.wf s.pbuf = true
  wbuf_below : Memory.below s.wbuf s.cap.n = true
  pbuf_below : Memory.below s.pbuf s.cap.n = true

/-- OPSTATE, the state commands read and write (10_state.md R37). -/
structure OpState where
  wlen  : Half
  plen  : Half
  dstHi : Half
  dstLo : Word
  srcHi : Half
  srcLo : Word
  etype : Half
  ctag  : TagReg
  stag  : TagReg
  wbuf  : Memory
  pbuf  : Memory
deriving DecidableEq, Repr

/-- The OPSTATE of a state (R37). -/
def State.opState (s : State) : OpState :=
  { wlen := s.wlen, plen := s.plen, dstHi := s.dstHi, dstLo := s.dstLo, srcHi := s.srcHi, srcLo := s.srcLo,
    etype := s.etype, ctag := s.ctag, stag := s.stag, wbuf := s.wbuf, pbuf := s.pbuf }

/-- Buffer contents `m` hold the byte sequence `b` from index 0, but for the indices `skip` allows to be anything. -/
abbrev Memory.holds (m : Memory) (b : List Byte) (skip : List Nat) : Prop :=
  ∀ i, i < b.length → i ∉ skip → Memory.read m i = b[i]?

/-- Every byte of a buffer below `n` has been written since reset (R39). -/
abbrev Memory.definedBelow (m : Memory) (n : Nat) : Prop := ∀ i, i < n → (Memory.read m i).isSome = true

/-- A tag whose VLAN ID is valid (00_scope.md R8). -/
abbrev VlanTag.valid (t : VlanTag) : Prop := t.vid.toNat ≤ 4095

/-- A present tag is valid; an absent one has nothing to check. -/
abbrev validTag (t : Option VlanTag) : Prop := ∀ x, t = some x → x.valid

/-- A service tag never appears alone (R9). -/
abbrev Frame.consistentlyTagged (f : Frame) : Prop := f.stag.isSome = true → f.ctag.isSome = true

/-- The three shapes of a frame's tagging (00_scope.md R10). -/
inductive Tagging where
  | untagged
  | singleTagged (customer : VlanTag)
  | doubleTagged (service customer : VlanTag)
deriving DecidableEq, Repr

/-- The tagging of a frame; nothing for the fourth combination, which FRAME_ENCODE rejects (R10, R107). -/
def Frame.tagging (f : Frame) : Option Tagging :=
  match f.stag, f.ctag with
  | none, none => some .untagged
  | none, some c => some (.singleTagged c)
  | some s, some c => some (.doubleTagged s c)
  | some _, none => none

/-- An Untagged frame whose EtherType is a TPID value, which decodes as something else (41_frame_ops.md R111). -/
abbrev Frame.masqueraded (f : Frame) : Prop :=
  f.ctag = none ∧ f.stag = none ∧ (f.etype = 0x8100#16 ∨ f.etype = 0x88A8#16)

/-- The tag body of a VlanTag with a 12-bit VID as its two wire bytes (30_encoding.md R72): PCP, DEI and VID[11:8] in the
first, VID[7:0] in the second: byte 0 = (PCP << 5) | (DEI << 4) | VID[11:8]. -/
def tagBody (pcp : BitVec 3) (dei : Bool) (vid : BitVec 12) : List Byte :=
  [(pcp.setWidth 8 <<< 5) ||| ((if dei then 1#8 else 0#8) <<< 4) ||| (vid.extractLsb' 8 4).setWidth 8, vid.extractLsb' 0 8]

/-- A tag register that holds a present tag with a 12-bit VID. -/
def presentTag (pcp : BitVec 3) (dei : Bool) (vid : BitVec 12) : TagReg :=
  { vid := vid.setWidth 16, pcp := pcp, dei := dei, present := true }

/-- Every error report there is (60_exceptions.md R128, R129, R131 to R136): the command that can raise it, or none for an
illegal word, its code, its context, and what STATUS then reads with VIOL = 0 (R130: 0x6 | code << 4 | ctx << 8). -/
def errorReports : List (Option Instr × ErrCode × ErrCtx × Word) :=
  [(some .frameDecode, .frameTooShort, .none, 0x00000016), (some .frameDecode, .frameTooShort, .customer, 0x00000116),
   (some .frameDecode, .frameTooShort, .service, 0x00000216), (some .tagDecode, .malformedTag, .none, 0x00000026),
   (some .tagEncode, .invalidVlanId, .none, 0x00000036), (some .frameEncode, .invalidVlanId, .customer, 0x00000136),
   (some .frameEncode, .invalidVlanId, .service, 0x00000236), (some .frameEncode, .inconsistentTagging, .none, 0x00000046),
   (some .tagDecode, .bufferOverflow, .none, 0x00000056), (some .frameDecode, .bufferOverflow, .none, 0x00000056),
   (some .frameEncode, .bufferOverflow, .none, 0x00000056), (none, .illegalCommand, .none, 0x00000066)]

/-- The registers hold a frame FRAME_ENCODE can encode into the buffer: every check of R110 passes. -/
abbrev State.encodable (s : State) : Prop :=
  (s.stag.present = true → s.ctag.present = true ∧ s.stag.vid.toNat ≤ 4095) ∧
  (s.ctag.present = true → s.ctag.vid.toNat ≤ 4095) ∧
  14 + (if s.stag.present then 4 else 0) + (if s.ctag.present then 4 else 0) + s.plen.toNat ≤ s.cap.n

/-- Byte `k` of WBUF is one the result of a FRAME_DECODE depends on (R97 to R99): the command has a layout to read, by its
length and the TPID at offset 12, and `k` is in it and not in the inner TPID of a QinQ frame (log entry 4). -/
abbrev State.decodeNeeds (s : State) (k : Nat) : Prop :=
  14 ≤ s.wlen.toNat ∧ s.wlen.toNat ≤ s.cap.n ∧ k < s.wlen.toNat ∧
  (Memory.read s.wbuf 12 = some 0x81 → Memory.read s.wbuf 13 = some 0x00 → 18 ≤ s.wlen.toNat) ∧
  (Memory.read s.wbuf 12 = some 0x88 → Memory.read s.wbuf 13 = some 0xA8 → 22 ≤ s.wlen.toNat ∧ k ≠ 16 ∧ k ≠ 17)

/-- Two states agree on what a command reads (30_encoding.md R80). -/
def sameReads (i : Instr) (s₁ s₂ : State) : Prop :=
  match i with
  | .tagDecode => s₁.wlen = s₂.wlen ∧ ∀ k, k < s₁.wlen.toNat → Memory.read s₁.wbuf k = Memory.read s₂.wbuf k
  | .tagEncode => s₁.ctag.vid = s₂.ctag.vid ∧ s₁.ctag.pcp = s₂.ctag.pcp ∧ s₁.ctag.dei = s₂.ctag.dei
  | .frameDecode => s₁.wlen = s₂.wlen ∧ ∀ k, k < s₁.wlen.toNat → Memory.read s₁.wbuf k = Memory.read s₂.wbuf k
  | .frameEncode => s₁.dstHi = s₂.dstHi ∧ s₁.dstLo = s₂.dstLo ∧ s₁.srcHi = s₂.srcHi ∧ s₁.srcLo = s₂.srcLo ∧
      s₁.etype = s₂.etype ∧ s₁.ctag = s₂.ctag ∧ s₁.stag = s₂.stag ∧ s₁.plen = s₂.plen ∧
      ∀ k, k < s₁.plen.toNat → Memory.read s₁.pbuf k = Memory.read s₂.pbuf k

/-- Two states agree on what a command writes on success (R80), the ranges at their new lengths. -/
def sameWrites (i : Instr) (t₁ t₂ : State) : Prop :=
  match i with
  | .tagDecode => t₁.ctag = t₂.ctag
  | .tagEncode => t₁.wlen = t₂.wlen ∧ ∀ k, k < 2 → Memory.read t₁.wbuf k = Memory.read t₂.wbuf k
  | .frameDecode => t₁.dstHi = t₂.dstHi ∧ t₁.dstLo = t₂.dstLo ∧ t₁.srcHi = t₂.srcHi ∧ t₁.srcLo = t₂.srcLo ∧
      t₁.etype = t₂.etype ∧ t₁.ctag = t₂.ctag ∧ t₁.stag = t₂.stag ∧ t₁.plen = t₂.plen ∧
      ∀ k, k < t₁.plen.toNat → Memory.read t₁.pbuf k = Memory.read t₂.pbuf k
  | .frameEncode => t₁.wlen = t₂.wlen ∧ ∀ k, k < t₁.wlen.toNat → Memory.read t₁.wbuf k = Memory.read t₂.wbuf k

end Sys2Proof.Machine
end

