-- ==== Sys2Proof/Certificates/Slice0/Obligations.lean ====
section
/-! DEFINITION. The statements for the provers, from the numbered rules of spec/. A state `s` stands for every state,
reachable or not, and for every capacity BUF_CAP. -/

open Sys2Proof Sys2Proof.Machine

/-! ### Command words and the engine step -/

/-- R71: the four words of the command map decode to their commands, and every other word is illegal. -/
def Obligations.DecoderAcceptsExactlyTheFourWords : Prop :=
  decodeCmd 0x00000001#32 = some .tagDecode ∧ decodeCmd 0x00000002#32 = some .tagEncode ∧
  decodeCmd 0x00000003#32 = some .frameDecode ∧ decodeCmd 0x00000004#32 = some .frameEncode ∧
  ∀ w : Word, w ≠ 0x00000001#32 → w ≠ 0x00000002#32 → w ≠ 0x00000003#32 → w ≠ 0x00000004#32 → decodeCmd w = none

/-- R68, R69: encoding and decoding a command word are inverse, in both directions. -/
def Obligations.DecodeAndEncodeAgree : Prop :=
  (∀ i : Instr, i.wf = true → decodeCmd (encode i) = some i) ∧
  (∀ (w : Word) (i : Instr), decodeCmd w = some i → encode i = w)

/-- R116, R118: on the engine's turn with BUSY = 1 (or with no turn given, log entry 6) the step is `exec` of the command
PENDING decodes to, at the state whose turn has been taken off the list; with BUSY = 0 the engine does nothing. -/
def Obligations.StepRunsTheDecodedCommand : Prop :=
  ∀ (s : State) (i : Instr), decodeCmd s.pending = some i → i.wf = true →
    (s.status.busy = true → ∀ ts, s.turns = .engine :: ts → step s = exec i { s with turns := ts }) ∧
    (s.status.busy = true → s.turns = [] → step s = exec i s) ∧
    (s.status.busy = false → ∀ ts, s.turns = .engine :: ts → step s = .next { s with turns := ts })

/-- Log entry 6: a command word placed to be fetched is issued and is what the next step runs. -/
def Obligations.FetchedWordRunsNext : Prop :=
  ∀ (s : State) (i : Instr),
    step (s.withFetchWord 32 (encode i).toNat) =
      exec i { s with pending := encode i,
                      status := { s.status with busy := true, done := false, err := false, errCode := none, errCtx := .none } }

/-- R121: the engine step of an illegal word raises ILLEGAL_COMMAND with context NONE and completes by R130; no OPSTATE
element is read or written. -/
def Obligations.IllegalWordCompletesWithError : Prop :=
  ∀ s : State, s.status.busy = true → decodeCmd s.pending = none →
    engineStep s = .next { s with status := { s.status with busy := false, done := true, err := true,
                                                            errCode := some .illegalCommand, errCtx := .none } }

/-! ### TAG_DECODE and TAG_ENCODE -/

/-- R91, R72: with WLEN = 2 and both bytes written, TAG_DECODE puts the tag body's fields into CTAG with PRESENT = 1, and
changes nothing else but STATUS. -/
def Obligations.TagDecodeResult : Prop :=
  ∀ (s : State) (pcp : BitVec 3) (dei : Bool) (vid : BitVec 12),
    s.wlen = 2 → Memory.holds s.wbuf (tagBody pcp dei vid) [] →
    exec .tagDecode s =
      .next { s with ctag := { present := true, dei := dei, pcp := pcp, vid := vid.setWidth 16 },
                     status := { s.status with busy := false, done := true } }

/-- R91, R132, R135, R137: WLEN above BUF_CAP is BUFFER_OVERFLOW, any other WLEN but 2 is MALFORMED_TAG, both with context
NONE, whatever WBUF holds, and only STATUS changes. That bytes below WLEN need not have been written is the model's
inference (log entry 4). -/
def Obligations.TagDecodeErrors : Prop :=
  ∀ s : State,
    (s.cap.n < s.wlen.toNat →
      exec .tagDecode s =
        .next { s with status := { s.status with busy := false, done := true, err := true,
                                                 errCode := some .bufferOverflow, errCtx := .none } }) ∧
    (s.wlen.toNat ≤ s.cap.n → s.wlen ≠ 2 →
      exec .tagDecode s =
        .next { s with status := { s.status with busy := false, done := true, err := true,
                                                 errCode := some .malformedTag, errCtx := .none } })

/-- R92, R74: a tag whose VID is at most 4095 is packed into WBUF[0:2), PCP and DEI first, whatever CTAG.PRESENT is; WLEN
becomes 2, and nothing else changes but STATUS. -/
def Obligations.TagEncodeResult : Prop :=
  ∀ (s : State) (vid : BitVec 12), s.ctag.vid = vid.setWidth 16 →
    ∃ t, exec .tagEncode s = .next t ∧
      t = { s with wbuf := t.wbuf, wlen := 2, status := { s.status with busy := false, done := true } } ∧
      ∀ i, Memory.read t.wbuf i =
        if i < 2 then (tagBody s.ctag.pcp s.ctag.dei vid)[i]? else Memory.read s.wbuf i

/-- R92, R133: a VID of 4096 to 65535 is INVALID_VLAN_ID with context NONE, and only STATUS changes. -/
def Obligations.TagEncodeRejectsInvalidVid : Prop :=
  ∀ s : State, 4095 < s.ctag.vid.toNat →
    exec .tagEncode s =
      .next { s with status := { s.status with busy := false, done := true, err := true,
                                               errCode := some .invalidVlanId, errCtx := .none } }

/-! ### FRAME_DECODE -/

/-- R76, R97, R100, R109: a frame whose value at offset 12 is no TPID is decoded as untagged: both tag registers become
zero, the payload goes to PBUF[0:PLEN), and PBUF above it, WBUF and WLEN stay. -/
def Obligations.FrameDecodeUntaggedResult : Prop :=
  ∀ (s : State) (dst src : HwAddr) (e0 e1 : Byte) (payload : List Byte) (b : List Byte),
    b = dst.bytes ++ src.bytes ++ [e0, e1] ++ payload →
    be16 e0 e1 ≠ 0x8100#16 → be16 e0 e1 ≠ 0x88A8#16 →
    s.wlen.toNat = b.length → b.length ≤ s.cap.n → Memory.holds s.wbuf b [] →
    ∃ t, exec .frameDecode s = .next t ∧
      t = { s with dstHi := be16 dst.b0 dst.b1, dstLo := be32 dst.b2 dst.b3 dst.b4 dst.b5,
                   srcHi := be16 src.b0 src.b1, srcLo := be32 src.b2 src.b3 src.b4 src.b5,
                   etype := be16 e0 e1, ctag := TagReg.zero, stag := TagReg.zero,
                   plen := BitVec.ofNat 16 payload.length, pbuf := t.pbuf,
                   status := { s.status with busy := false, done := true } } ∧
      ∀ i, Memory.read t.pbuf i = if i < payload.length then payload[i]? else Memory.read s.pbuf i

/-- R77, R97, R101, R109: a frame with TPID 0x8100 at offset 12 is decoded as single-tagged, whatever EtherType follows
the tag (0x8100 and 0x88A8 too). -/
def Obligations.FrameDecodeSingleTaggedResult : Prop :=
  ∀ (s : State) (dst src : HwAddr) (pcp : BitVec 3) (dei : Bool) (vid : BitVec 12) (e0 e1 : Byte)
    (payload : List Byte) (b : List Byte),
    b = dst.bytes ++ src.bytes ++ [0x81, 0x00] ++ tagBody pcp dei vid ++ [e0, e1] ++ payload →
    s.wlen.toNat = b.length → b.length ≤ s.cap.n → Memory.holds s.wbuf b [] →
    ∃ t, exec .frameDecode s = .next t ∧
      t = { s with dstHi := be16 dst.b0 dst.b1, dstLo := be32 dst.b2 dst.b3 dst.b4 dst.b5,
                   srcHi := be16 src.b0 src.b1, srcLo := be32 src.b2 src.b3 src.b4 src.b5,
                   etype := be16 e0 e1, ctag := presentTag pcp dei vid, stag := TagReg.zero,
                   plen := BitVec.ofNat 16 payload.length, pbuf := t.pbuf,
                   status := { s.status with busy := false, done := true } } ∧
      ∀ i, Memory.read t.pbuf i = if i < payload.length then payload[i]? else Memory.read s.pbuf i

/-- R78, R97, R99, R109: a frame with TPID 0x88A8 at offset 12 is decoded as double-tagged in one step, the outer tag to
STAG and the inner to CTAG; the two bytes at offset 16 may hold anything, or
(the model's inference, log entry 4) never have been written. -/
def Obligations.FrameDecodeQinQResult : Prop :=
  ∀ (s : State) (dst src : HwAddr) (sp cp : BitVec 3) (sd cd : Bool) (sv cv : BitVec 12) (z0 z1 e0 e1 : Byte)
    (payload : List Byte) (b : List Byte),
    b = dst.bytes ++ src.bytes ++ [0x88, 0xA8] ++ tagBody sp sd sv ++ [z0, z1] ++ tagBody cp cd cv ++ [e0, e1]
          ++ payload →
    s.wlen.toNat = b.length → b.length ≤ s.cap.n → Memory.holds s.wbuf b [16, 17] →
    ∃ t, exec .frameDecode s = .next t ∧
      t = { s with dstHi := be16 dst.b0 dst.b1, dstLo := be32 dst.b2 dst.b3 dst.b4 dst.b5,
                   srcHi := be16 src.b0 src.b1, srcLo := be32 src.b2 src.b3 src.b4 src.b5,
                   etype := be16 e0 e1, ctag := presentTag cp cd cv, stag := presentTag sp sd sv,
                   plen := BitVec.ofNat 16 payload.length, pbuf := t.pbuf,
                   status := { s.status with busy := false, done := true } } ∧
      ∀ i, Memory.read t.pbuf i = if i < payload.length then payload[i]? else Memory.read s.pbuf i

/-- R98, R109, R131, R135, R137: WLEN above BUF_CAP is BUFFER_OVERFLOW; below 14 FRAME_TOO_SHORT (NONE); below 18 with
81 00 at offset 12 FRAME_TOO_SHORT (CUSTOMER); below 22 with 88 A8 there FRAME_TOO_SHORT (SERVICE). Only STATUS changes.
That the other bytes below WLEN need not have been written is the model's inference (log entry 4). -/
def Obligations.FrameDecodeErrors : Prop :=
  ∀ s : State,
    (s.cap.n < s.wlen.toNat →
      exec .frameDecode s =
        .next { s with status := { s.status with busy := false, done := true, err := true,
                                                 errCode := some .bufferOverflow, errCtx := .none } }) ∧
    (s.wlen.toNat ≤ s.cap.n → s.wlen.toNat < 14 →
      exec .frameDecode s =
        .next { s with status := { s.status with busy := false, done := true, err := true,
                                                 errCode := some .frameTooShort, errCtx := .none } }) ∧
    (s.wlen.toNat ≤ s.cap.n → 14 ≤ s.wlen.toNat → s.wlen.toNat < 18 →
      Memory.read s.wbuf 12 = some 0x81 → Memory.read s.wbuf 13 = some 0x00 →
      exec .frameDecode s =
        .next { s with status := { s.status with busy := false, done := true, err := true,
                                                 errCode := some .frameTooShort, errCtx := .customer } }) ∧
    (s.wlen.toNat ≤ s.cap.n → 14 ≤ s.wlen.toNat → s.wlen.toNat < 22 →
      Memory.read s.wbuf 12 = some 0x88 → Memory.read s.wbuf 13 = some 0xA8 →
      exec .frameDecode s =
        .next { s with status := { s.status with busy := false, done := true, err := true,
                                                 errCode := some .frameTooShort, errCtx := .service } })

/-! ### FRAME_ENCODE -/

/-- R76, R105, R108, R110, R113: with both tags absent (their other fields whatever they are) FRAME_ENCODE writes
addresses, EtherType (TPID values too) and payload to WBUF[0:WLEN), unpadded; WBUF above it and all else stays. -/
def Obligations.FrameEncodeUntaggedResult : Prop :=
  ∀ (s : State) (dst src : HwAddr) (e0 e1 : Byte) (payload out : List Byte),
    s.dstHi = be16 dst.b0 dst.b1 → s.dstLo = be32 dst.b2 dst.b3 dst.b4 dst.b5 →
    s.srcHi = be16 src.b0 src.b1 → s.srcLo = be32 src.b2 src.b3 src.b4 src.b5 → s.etype = be16 e0 e1 →
    s.ctag.present = false → s.stag.present = false →
    s.plen.toNat = payload.length → Memory.holds s.pbuf payload [] →
    out = dst.bytes ++ src.bytes ++ [e0, e1] ++ payload → out.length ≤ s.cap.n →
    ∃ t, exec .frameEncode s = .next t ∧
      t = { s with wbuf := t.wbuf, wlen := BitVec.ofNat 16 out.length,
                   status := { s.status with busy := false, done := true } } ∧
      ∀ i, Memory.read t.wbuf i = if i < out.length then out[i]? else Memory.read s.wbuf i

/-- R77, R105, R110: with a valid customer tag only, the TPID 0x8100 and its body stand at offset 12. -/
def Obligations.FrameEncodeSingleTaggedResult : Prop :=
  ∀ (s : State) (dst src : HwAddr) (pcp : BitVec 3) (dei : Bool) (vid : BitVec 12) (e0 e1 : Byte)
    (payload out : List Byte),
    s.dstHi = be16 dst.b0 dst.b1 → s.dstLo = be32 dst.b2 dst.b3 dst.b4 dst.b5 →
    s.srcHi = be16 src.b0 src.b1 → s.srcLo = be32 src.b2 src.b3 src.b4 src.b5 → s.etype = be16 e0 e1 →
    s.ctag = presentTag pcp dei vid → s.stag.present = false →
    s.plen.toNat = payload.length → Memory.holds s.pbuf payload [] →
    out = dst.bytes ++ src.bytes ++ [0x81, 0x00] ++ tagBody pcp dei vid ++ [e0, e1] ++ payload →
    out.length ≤ s.cap.n →
    ∃ t, exec .frameEncode s = .next t ∧
      t = { s with wbuf := t.wbuf, wlen := BitVec.ofNat 16 out.length,
                   status := { s.status with busy := false, done := true } } ∧
      ∀ i, Memory.read t.wbuf i = if i < out.length then out[i]? else Memory.read s.wbuf i

/-- R78, R105, R110: with two valid tags, 88 A8 and the service body come first, then 81 00 and the customer body. -/
def Obligations.FrameEncodeQinQResult : Prop :=
  ∀ (s : State) (dst src : HwAddr) (sp cp : BitVec 3) (sd cd : Bool) (sv cv : BitVec 12) (e0 e1 : Byte)
    (payload out : List Byte),
    s.dstHi = be16 dst.b0 dst.b1 → s.dstLo = be32 dst.b2 dst.b3 dst.b4 dst.b5 →
    s.srcHi = be16 src.b0 src.b1 → s.srcLo = be32 src.b2 src.b3 src.b4 src.b5 → s.etype = be16 e0 e1 →
    s.ctag = presentTag cp cd cv → s.stag = presentTag sp sd sv →
    s.plen.toNat = payload.length → Memory.holds s.pbuf payload [] →
    out = dst.bytes ++ src.bytes ++ [0x88, 0xA8] ++ tagBody sp sd sv ++ [0x81, 0x00] ++ tagBody cp cd cv ++ [e0, e1]
            ++ payload →
    out.length ≤ s.cap.n →
    ∃ t, exec .frameEncode s = .next t ∧
      t = { s with wbuf := t.wbuf, wlen := BitVec.ofNat 16 out.length,
                   status := { s.status with busy := false, done := true } } ∧
      ∀ i, Memory.read t.wbuf i = if i < out.length then out[i]? else Memory.read s.wbuf i

/-- R106, R107, R110, R135, R137: a service tag alone is INCONSISTENT_TAGGING whatever its VID; then an invalid VID of the
service tag (SERVICE), then of the customer tag (CUSTOMER), then a length above BUF_CAP (computed without wrap-around,
R104). PBUF need not have been written, and only STATUS changes. -/
def Obligations.FrameEncodeErrors : Prop :=
  ∀ s : State,
    (s.stag.present = true → s.ctag.present = false →
      exec .frameEncode s =
        .next { s with status := { s.status with busy := false, done := true, err := true,
                                                 errCode := some .inconsistentTagging, errCtx := .none } }) ∧
    (s.stag.present = true → s.ctag.present = true → 4095 < s.stag.vid.toNat →
      exec .frameEncode s =
        .next { s with status := { s.status with busy := false, done := true, err := true,
                                                 errCode := some .invalidVlanId, errCtx := .service } }) ∧
    ((s.stag.present = true → s.stag.vid.toNat ≤ 4095) → s.ctag.present = true → 4095 < s.ctag.vid.toNat →
      exec .frameEncode s =
        .next { s with status := { s.status with busy := false, done := true, err := true,
                                                 errCode := some .invalidVlanId, errCtx := .customer } }) ∧
    ((s.stag.present = true → s.ctag.present = true ∧ s.stag.vid.toNat ≤ 4095) →
      (s.ctag.present = true → s.ctag.vid.toNat ≤ 4095) →
      s.cap.n < 14 + (if s.stag.present then 4 else 0) + (if s.ctag.present then 4 else 0) + s.plen.toNat →
      exec .frameEncode s =
        .next { s with status := { s.status with busy := false, done := true, err := true,
                                                 errCode := some .bufferOverflow, errCtx := .none } })

/-! ### Every command -/

/-- R120: when every byte a command's length covers has been written, the command completes: with success, or with an
error after which nothing but STATUS has changed. -/
def Obligations.EveryCommandCompletes : Prop :=
  ∀ (i : Instr) (s : State), Memory.definedBelow s.wbuf s.wlen.toNat → Memory.definedBelow s.pbuf s.plen.toNat →
    ∃ t, exec i s = .next t ∧
      (t.status = { s.status with busy := false, done := true } ∨
        ∃ c x, t = { s with status := { s.status with busy := false, done := true, err := true,
                                                       errCode := some c, errCtx := x } })

/-- R39, R150 and U3 of 93_implementation_defined.md: a command faults only because a byte its result depends on was never
written (which bytes those are is log entry 4, the model's inference): TAG_DECODE on one of the two bytes of a body,
FRAME_DECODE on a byte of a layout it reads, FRAME_ENCODE below PLEN with every check passed; TAG_ENCODE never does. -/
def Obligations.FaultOnlyOnUnwrittenByte : Prop :=
  ∀ (i : Instr) (s : State) (r : Fault), exec i s = .fault r →
    ∃ k, (r = .undefinedByte .wbuf k ∧ i = .tagDecode ∧ Memory.read s.wbuf k = none ∧ s.wlen = 2 ∧ k < 2) ∨
         (r = .undefinedByte .wbuf k ∧ i = .frameDecode ∧ Memory.read s.wbuf k = none ∧ s.decodeNeeds k) ∨
         (r = .undefinedByte .pbuf k ∧ i = .frameEncode ∧ Memory.read s.pbuf k = none ∧ s.encodable ∧ k < s.plen.toNat)

/-- R150 and U3: a command whose result depends on a byte never written since reset faults (which bytes those are is log
entry 4, the model's inference): TAG_DECODE of a 2-byte body; FRAME_DECODE of every layout, for every EtherType, and when
the TPID itself is unwritten; FRAME_ENCODE of every frame, tagged or not, that passes its checks. -/
def Obligations.UnwrittenByteFaults : Prop :=
  ∀ (s : State) (k : Nat),
    (s.wlen = 2 → k < 2 → Memory.read s.wbuf k = none → ∃ j, exec .tagDecode s = .fault (.undefinedByte .wbuf j)) ∧
    (s.decodeNeeds k → Memory.read s.wbuf k = none → ∃ j, exec .frameDecode s = .fault (.undefinedByte .wbuf j)) ∧
    (s.encodable → k < s.plen.toNat → Memory.read s.pbuf k = none →
      ∃ j, exec .frameEncode s = .fault (.undefinedByte .pbuf j))

/-- R38: what a command does to OPSTATE, and which error it reports, is a function of the word in PENDING, of OPSTATE and
of BUF_CAP only: two states that agree on those have the same outcome. -/
def Obligations.CommandsAreStateless : Prop :=
  ∀ s₁ s₂ : State, s₁.pending = s₂.pending → s₁.opState = s₂.opState → s₁.cap = s₂.cap →
    (∀ r, engineCommand s₁ = .fault r ↔ engineCommand s₂ = .fault r) ∧
    ∀ t₁, engineCommand s₁ = .next t₁ → ∃ t₂, engineCommand s₂ = .next t₂ ∧ t₁.opState = t₂.opState ∧
      ((t₁.status = { s₁.status with busy := false, done := true } ∧
          t₂.status = { s₂.status with busy := false, done := true }) ∨
       ∃ c x, t₁.status = { s₁.status with busy := false, done := true, err := true, errCode := some c, errCtx := x } ∧
              t₂.status = { s₂.status with busy := false, done := true, err := true, errCode := some c, errCtx := x })

/-- R158: bytes of WBUF at or above WLEN and of PBUF at or above PLEN never influence a command: replacing them changes
neither whether it faults nor any register nor any byte below the resulting lengths. -/
def Obligations.StaleBytesNeverInfluence : Prop :=
  ∀ (i : Instr) (s : State) (w p : Memory),
    (∀ k, k < s.wlen.toNat → Memory.read w k = Memory.read s.wbuf k) →
    (∀ k, k < s.plen.toNat → Memory.read p k = Memory.read s.pbuf k) →
    (∀ r, exec i s = .fault r ↔ exec i { s with wbuf := w, pbuf := p } = .fault r) ∧
    ∀ t, exec i s = .next t → ∃ t', exec i { s with wbuf := w, pbuf := p } = .next t' ∧
      t' = { t with wbuf := t'.wbuf, pbuf := t'.pbuf } ∧
      (∀ k, k < t.wlen.toNat → Memory.read t'.wbuf k = Memory.read t.wbuf k) ∧
      (∀ k, k < t.plen.toNat → Memory.read t'.pbuf k = Memory.read t.pbuf k)

/-- R47, R80: what each command may write. The decodes leave WBUF and WLEN; all but FRAME_DECODE leave PBUF, PLEN, the
addresses, ETYPE and STAG; all but the decodes leave CTAG; no byte at or above the new length changes. -/
def Obligations.CommandsWriteOnlyTheirRanges : Prop :=
  ∀ (i : Instr) (s t : State), exec i s = .next t →
    ((i = .tagDecode ∨ i = .frameDecode) → t.wbuf = s.wbuf ∧ t.wlen = s.wlen) ∧
    (i ≠ .frameDecode → t.pbuf = s.pbuf ∧ t.plen = s.plen ∧ t.dstHi = s.dstHi ∧ t.dstLo = s.dstLo ∧
      t.srcHi = s.srcHi ∧ t.srcLo = s.srcLo ∧ t.etype = s.etype ∧ t.stag = s.stag) ∧
    ((i = .tagEncode ∨ i = .frameEncode) → t.ctag = s.ctag) ∧
    (∀ k, t.wlen.toNat ≤ k → Memory.read t.wbuf k = Memory.read s.wbuf k) ∧
    (∀ k, t.plen.toNat ≤ k → Memory.read t.pbuf k = Memory.read s.pbuf k) ∧
    t = { s with wlen := t.wlen, plen := t.plen, dstHi := t.dstHi, dstLo := t.dstLo, srcHi := t.srcHi, srcLo := t.srcLo,
                 etype := t.etype, ctag := t.ctag, stag := t.stag, wbuf := t.wbuf, pbuf := t.pbuf, status := t.status }

/-! ### The codec's laws -/

/-- R90: (a) decoding an encoded valid tag gives it back, in any context; (b) every 2-byte body is the encoding of what it
decodes to, and of no other valid tag. -/
def Obligations.TagRoundTrips : Prop :=
  (∀ (t : VlanTag) (ctx : ErrCtx), t.vid.toNat ≤ 4095 →
    ∃ b, tagEncode t ctx = .ok b ∧ tagDecode b ctx = .ok t) ∧
  (∀ (b : List Byte) (ctx : ErrCtx), b.length = 2 →
    ∃ t, tagDecode b ctx = .ok t ∧ t.vid.toNat ≤ 4095 ∧ tagEncode t ctx = .ok b ∧
      ∀ u : VlanTag, u.vid.toNat ≤ 4095 → tagEncode u ctx = .ok b → u = t)

/-- R89: the INVALID_VLAN_ID branch of tagDecode is unreachable, and tagDecode fails only with MALFORMED_TAG, and only
when the input is not 2 bytes: twelve masked bits never exceed 4095. -/
def Obligations.TagDecodeFailsOnlyOnLength : Prop :=
  (∀ num : Half, (num &&& 0x0FFF#16).toNat ≤ 4095) ∧
  ∀ (b : List Byte) (ctx : ErrCtx) (e : CodecError),
    tagDecode b ctx = .error e ↔ b.length ≠ 2 ∧ e = { code := .malformedTag, ctx := ctx }

/-- R98, R103: frameDecode fails with FRAME_TOO_SHORT exactly below the minimum of the detected tag depth, with that
depth's context, and with nothing else. -/
def Obligations.FrameDecodeFailsExactlyWhenTooShort : Prop :=
  ∀ (b : List Byte) (e : CodecError),
    frameDecode b = .error e ↔
      (b.length < 14 ∧ e = { code := .frameTooShort, ctx := .none }) ∨
      (14 ≤ b.length ∧ b.length < 18 ∧ b[12]? = some 0x81 ∧ b[13]? = some 0x00 ∧
        e = { code := .frameTooShort, ctx := .customer }) ∨
      (14 ≤ b.length ∧ b.length < 22 ∧ b[12]? = some 0x88 ∧ b[13]? = some 0xA8 ∧
        e = { code := .frameTooShort, ctx := .service })

/-- R106, R107, R108: frameEncode fails exactly on inconsistent tagging, which comes first, or on a present tag whose VID
exceeds 4095, the service tag before the customer tag. -/
def Obligations.FrameEncodeFailsExactly : Prop :=
  ∀ (f : Frame) (e : CodecError),
    frameEncode f = .error e ↔
      (f.stag ≠ none ∧ f.ctag = none ∧ e = { code := .inconsistentTagging, ctx := .none }) ∨
      (f.ctag ≠ none ∧ (∃ t, f.stag = some t ∧ 4095 < t.vid.toNat) ∧ e = { code := .invalidVlanId, ctx := .service }) ∨
      ((∀ t, f.stag = some t → t.vid.toNat ≤ 4095) ∧ (∃ t, f.ctag = some t ∧ 4095 < t.vid.toNat) ∧
        e = { code := .invalidVlanId, ctx := .customer })

/-- R104, R105: the length of an encoded frame is 14, plus 4 for each tag present, plus the payload's length. -/
def Obligations.EncodedFrameLength : Prop :=
  ∀ (f : Frame) (b : List Byte), frameEncode f = .ok b →
    b.length = 14 + (if f.stag = none then 0 else 4) + (if f.ctag = none then 0 else 4) + f.payload.length

/-- R111: for every Frame that is consistently tagged, whose present tags have vid <= 4095, and that is not an Untagged
frame with a TPID value as its EtherType, decoding the encoding gives the Frame back. -/
def Obligations.FrameRoundTrips : Prop :=
  ∀ f : Frame, f.consistentlyTagged → validTag f.ctag → validTag f.stag → ¬ f.masqueraded →
    ∃ b, frameEncode f = .ok b ∧ frameDecode b = .ok f

/-- R112: for every byte sequence that decodes, re-encoding reproduces it exactly when it is not the case that it has the
QinQ TPID at offset 12 and an inner TPID other than 81 00. -/
def Obligations.ReencodingReproducesInput : Prop :=
  ∀ (b : List Byte) (f : Frame), frameDecode b = .ok f →
    (frameEncode f = .ok b ↔
      ¬ (b[12]? = some 0x88 ∧ b[13]? = some 0xA8 ∧ ¬ (b[16]? = some 0x81 ∧ b[17]? = some 0x00)))

/-- R111, at the register level: when FRAME_ENCODE completes without error on registers that do not hold a masqueraded
frame, a FRAME_DECODE issued next completes without error and leaves the addresses, tags, EtherType and payload as they
were; the fields of an absent tag read 0 afterwards. -/
def Obligations.RegisterRoundTrip : Prop :=
  ∀ s t : State,
    ¬ (s.ctag.present = false ∧ s.stag.present = false ∧ (s.etype = 0x8100#16 ∨ s.etype = 0x88A8#16)) →
    exec .frameEncode s = .next t → t.status.err = false →
    ∃ u, exec .frameDecode (issue t (encode .frameDecode)) = .next u ∧ u.status.err = false ∧ u.status.done = true ∧
      u.dstHi = s.dstHi ∧ u.dstLo = s.dstLo ∧ u.srcHi = s.srcHi ∧ u.srcLo = s.srcLo ∧ u.etype = s.etype ∧
      u.ctag = (if s.ctag.present then s.ctag else TagReg.zero) ∧
      u.stag = (if s.stag.present then s.stag else TagReg.zero) ∧
      u.plen = s.plen ∧ ∀ k, Memory.read u.pbuf k = Memory.read s.pbuf k

/-- R34, R33: for every Frame whose payload fits the buffer, `regFrame()` after `writeFrame(f)` equals f, and PBUF at or
above the payload's length is unchanged. -/
def Obligations.WrittenFrameReadsBack : Prop :=
  ∀ (s : State) (f : Frame), f.payload.length ≤ s.cap.n →
    regFrame (writeFrame s f) = f ∧
    ∀ k, f.payload.length ≤ k → Memory.read (writeFrame s f).pbuf k = Memory.read s.pbuf k

/-- R12: `be16` and `be32` read big-endian numbers, and `bytes16` writes one. -/
def Obligations.BigEndianPacking : Prop :=
  (∀ x y : Byte, (be16 x y).toNat = 256 * x.toNat + y.toNat ∧ bytes16 (be16 x y) = [x, y]) ∧
  ∀ w x y z : Byte, (be32 w x y z).toNat = 16777216 * w.toNat + 65536 * x.toNat + 256 * y.toNat + z.toNat ∧
    regAddr (be16 w x) (be32 w x y z) = { b0 := w, b1 := x, b2 := w, b3 := x, b4 := y, b5 := z }

/-! ### Issue and completion -/

/-- R117: a host write of any value to CMD while BUSY = 0 latches it into PENDING, sets BUSY and clears DONE, ERR, ERRCODE
and ERRCTX, and changes nothing else of the block; while BUSY = 1 it is dropped and sets VIOL. -/
def Obligations.CommandIssue : Prop :=
  ∀ (s : State) (v : Word),
    (s.status.busy = false →
      busOp (.regWrite 0x00 v) s =
        .next { s with pending := v, reply := .none,
                       status := { s.status with busy := true, done := false, err := false, errCode := none,
                                                 errCtx := .none } }) ∧
    (s.status.busy = true →
      busOp (.regWrite 0x00 v) s = .next { s with reply := .none, status := { s.status with viol := true } })

/-- R119, R128, R129, R130: after a completion STATUS reads 0x00000002 when ERR = 0, and otherwise the word of a report the
command can raise (ILLEGAL_COMMAND for an illegal word), which ERRCODE and ERRCTX name; VIOL is kept and is bit 16. -/
def Obligations.CompletionStatusWord : Prop :=
  ∀ s t : State, s.Inv → s.status.busy = true → engineStep s = .next t →
    t.status.busy = false ∧ t.status.done = true ∧ t.status.viol = s.status.viol ∧
    ((t.status.err = false ∧ t.status.errCode = none ∧ t.status.errCtx = .none ∧
        t.status.word = 0x00000002#32 ||| (if s.status.viol then 0x00010000#32 else 0#32)) ∨
     (t.status.err = true ∧ ∃ c x w, (decodeCmd s.pending, c, x, w) ∈ errorReports ∧
        t.status.errCode = some c ∧ t.status.errCtx = x ∧
        t.status.word = w ||| (if s.status.viol then 0x00010000#32 else 0#32)))

/-- R130, R138: an engine step that ends in an error changes nothing but STATUS: OPSTATE is exactly as it was at issue, and
VIOL is unchanged. -/
def Obligations.ErrorCompletionChangesOnlyStatus : Prop :=
  ∀ s t : State, s.Inv → s.status.busy = true → engineStep s = .next t → t.status.err = true →
    ∃ c x, t = { s with status := { s.status with busy := false, done := true, err := true, errCode := some c,
                                                  errCtx := x } }

/-- R36, R126, R141: irq is STATUS.DONE and IRQ_EN.DONE_IE; it rises in the completion step when DONE_IE = 1, and falls in
the step that issues the next command, writes STATUS with bit 1 set, or clears DONE_IE. -/
def Obligations.InterruptFollowsCompletion : Prop :=
  ∀ s : State,
    s.irq = (s.status.done && s.irqEn) ∧
    (∀ t, s.Inv → s.status.busy = true → engineStep s = .next t → s.irq = false ∧ t.irq = s.irqEn) ∧
    (∀ t v, s.status.busy = false → busOp (.regWrite 0x00 v) s = .next t → t.irq = false) ∧
    (∀ t v, v.getLsbD 1 = true → busOp (.regWrite 0x04 v) s = .next t → t.irq = false) ∧
    (∀ t v, v.getLsbD 0 = false → busOp (.regWrite 0x08 v) s = .next t → t.irq = false)

/-! ### The host's bus operations -/

/-- R50 and U10: an access is refused exactly when it is none of the four operations; every one of the four takes a step.
That an index above 65535 is refused, as an offset or a width of no operation is, is the model's inference (log entry 9). -/
def Obligations.RefusedExactlyWhenNotAnOperation : Prop :=
  ∀ (o : BusOp) (s : State),
    (o.wf = true → ∃ t, busOp o s = .next t) ∧ (o.wf = false → ∃ r, busOp o s = .refused r)

/-- R58: while BUSY = 1, writes to CMD, to OPSTATE registers and to the buffers are dropped and set VIOL; reads of OPSTATE
registers and of bytes below BUF_CAP return a free value; STATUS, IRQ_EN, CAPS and the unmapped offsets behave as when
BUSY = 0; no bus operation changes OPSTATE. -/
def Obligations.AccessWhileBusy : Prop :=
  ∀ s : State, s.status.busy = true →
    (∀ off v, off ∈ [0x00, 0x10, 0x14, 0x18, 0x1C, 0x20, 0x24, 0x28, 0x2C, 0x30] →
      busOp (.regWrite off v) s = .next { s with reply := .none, status := { s.status with viol := true } }) ∧
    (∀ b i x, i ≤ 65535 →
      busOp (.bufWrite b i x) s = .next { s with reply := .none, status := { s.status with viol := true } }) ∧
    (∀ off, off ∈ [0x10, 0x14, 0x18, 0x1C, 0x20, 0x24, 0x28, 0x2C, 0x30] →
      busOp (.regRead off) s =
        .next { s with reply := .word (Config.freeWord s.draws), draws := s.draws + 1 }) ∧
    (∀ b i, i < s.cap.n →
      busOp (.bufRead b i) s =
        .next { s with reply := .byte (Config.freeByte s.draws), draws := s.draws + 1 }) ∧
    (∀ off, off ∈ [0x04, 0x08, 0x0C, 0x34, 0x38, 0x3C] → ∃ r, regAt off = some r ∧
      busOp (.regRead off) s = .next { s with reply := .word (r.value s) } ∧
      ∀ v, busOp (.regWrite off v) s = .next { r.store v s with reply := .none }) ∧
    (∀ o t, busOp o s = .next t → t.opState = s.opState)

/-- R57: an index at or above BUF_CAP reads 0x00 with no other effect, and a write there changes no byte and sets VIOL. -/
def Obligations.OutOfRangeBufferIndex : Prop :=
  ∀ (s : State) (b : Buf) (i : Nat) (x : Byte), s.cap.n ≤ i → i ≤ 65535 →
    busOp (.bufRead b i) s = .next { s with reply := .byte 0x00 } ∧
    busOp (.bufWrite b i x) s = .next { s with reply := .none, status := { s.status with viol := true } }

/-- R56: offsets 0x34, 0x38 and 0x3C read 0 and ignore writes, CAPS ignores writes, and none of these sets VIOL. -/
def Obligations.UnmappedAndReadOnlyRegisters : Prop :=
  ∀ (s : State) (v : Word),
    (∀ off, off ∈ [0x34, 0x38, 0x3C] → busOp (.regRead off) s = .next { s with reply := .word 0x00000000#32 }) ∧
    (∀ off, off ∈ [0x34, 0x38, 0x3C, 0x0C] → busOp (.regWrite off v) s = .next { s with reply := .none })

/-- R18, R19, R22 to R32: in every state a read of CMD returns 0 (while BUSY = 1 too: log entry 14), of CAPS the constant
and of STATUS its word. With BUSY = 0, any other register read after a host write returns the written value with its
reserved bits 0, and the write changes no other register. -/
def Obligations.RegisterReadsBackItsFields : Prop :=
  ∀ (s : State) (v : Word),
    busOp (.regRead 0x00) s = .next { s with reply := .word 0x00000000#32 } ∧
    busOp (.regRead 0x0C) s = .next { s with reply := .word ((0x01#32 <<< 16) ||| BitVec.ofNat 32 s.cap.n) } ∧
    busOp (.regRead 0x04) s = .next { s with reply := .word s.status.word } ∧
    (s.status.busy = false →
    ∀ (off : Nat) (mask : Word),
      (off, mask) ∈ [(0x08, 0x00000001#32), (0x10, 0x0000FFFF#32), (0x14, 0x0000FFFF#32), (0x18, 0x0000FFFF#32),
        (0x1C, 0xFFFFFFFF#32), (0x20, 0x0000FFFF#32), (0x24, 0xFFFFFFFF#32), (0x28, 0x0000FFFF#32),
        (0x2C, 0x800FFFFF#32), (0x30, 0x800FFFFF#32)] →
      ∃ t, busOp (.regWrite off v) s = .next t ∧
        busOp (.regRead off) t = .next { t with reply := .word (v &&& mask) } ∧
        (∀ other r, regAt other = some r → other ≠ off → r.value t = r.value s) ∧
        t.wbuf = s.wbuf ∧ t.pbuf = s.pbuf ∧ t.pending = s.pending ∧ t.status = s.status)

/-- R46, R51: with BUSY = 0, a byte written below BUF_CAP is what the next read of it returns, and no other byte of either
buffer changes. -/
def Obligations.BufferByteReadsBack : Prop :=
  ∀ (s : State) (b : Buf) (i : Nat) (x : Byte), s.status.busy = false → i < s.cap.n →
    ∃ t, busOp (.bufWrite b i x) s = .next t ∧
      busOp (.bufRead b i) t = .next { t with reply := .byte x } ∧
      (∀ c k, (c ≠ b ∨ k ≠ i) → Memory.read (t.buf c) k = Memory.read (s.buf c) k) ∧
      t = { s with wbuf := t.wbuf, pbuf := t.pbuf, reply := .none }

/-- R55: no read has a side effect: a RegRead or BufRead changes nothing but what is returned (and the count of free
values drawn). -/
def Obligations.ReadsHaveNoSideEffect : Prop :=
  ∀ (s t : State) (off : Nat) (b : Buf) (i : Nat),
    busOp (.regRead off) s = .next t ∨ busOp (.bufRead b i) s = .next t →
    t = { s with reply := t.reply, draws := t.draws }

/-- R20: a host write of v to STATUS clears DONE if v[1] = 1 and VIOL if v[16] = 1; every other bit of v is ignored; it is
accepted whether or not BUSY = 1. -/
def Obligations.StatusWriteOneToClear : Prop :=
  ∀ (s : State) (v : Word),
    busOp (.regWrite 0x04 v) s =
      .next { s with reply := .none,
                     status := { s.status with done := if v.getLsbD 1 then false else s.status.done,
                                               viol := if v.getLsbD 16 then false else s.status.viol } }

/-- R66: after a FRAME_DECODE, a host write to WBUF changes no decoded field, PBUF included. -/
def Obligations.DecodedFrameIndependentOfWire : Prop :=
  ∀ (s t : State) (i : Nat) (x : Byte), busOp (.bufWrite .wbuf i x) s = .next t → regFrame t = regFrame s

/-- R82: `wait` repeats the read of STATUS while the value read has BUSY = 1 and is over at the first value with BUSY = 0,
which is its result. -/
def Obligations.WaitPollsUntilIdle : Prop :=
  ∀ (s : State) (rest : List HostStmt), s.host = .wait :: rest →
    (s.status.busy = true → hostStep s = .next { s with reply := .word s.status.word }) ∧
    (s.status.busy = false → hostStep s = .next { s with host := rest, reply := .word s.status.word }) ∧
    s.status.word.getLsbD 0 = s.status.busy

/-- R81, R82: a `wb` line run by an idle host leaves its bytes at consecutive indices, one bus operation a byte, and every
other byte as it was. -/
def Obligations.BlockWriteLandsInOrder : Prop :=
  ∀ (s : State) (b : Buf) (i : Nat) (xs : List Byte) (rest : List HostStmt),
    s.status.busy = false → s.turns = [] → s.host = (HostLine.wb b i xs).expand ++ rest → i + xs.length ≤ s.cap.n →
    ∃ t, Host.Core.run core xs.length s = .next t ∧ t.host = rest ∧
      (∀ k, Memory.read (t.buf b) k = if i ≤ k ∧ k < i + xs.length then xs[k - i]? else Memory.read (s.buf b) k) ∧
      (∀ c, c ≠ b → t.buf c = s.buf c) ∧ t.status = s.status

/-! ### Reset -/

/-- R148, R149, R151: an asserted reset, in any state and during a command too, leaves every mapped register at its reset
value, no buffer byte defined, PENDING at a free value, no completion and BUF_CAP as it was. -/
def Obligations.ResetStepClearsTheBlock : Prop :=
  ∀ (s : State) (ts : List Turn), s.turns = .reset :: ts →
    ∃ t, step s = .next t ∧ t.cap = s.cap ∧ t.irq = false ∧ t.turns = ts ∧ t.pending = Config.freeWord s.draws ∧
      (∀ b k, Memory.read (t.buf b) k = none) ∧
      (∀ off r, regAt off = some r →
        r.value t = if off = 0x0C then (0x01#32 <<< 16) ||| BitVec.ofNat 32 s.cap.n else 0x00000000#32)

/-- R149, R152: after reset, at any capacity, every mapped register reads its reset value, the block is idle, `irq` is 0 and
no buffer byte is defined. -/
def Obligations.StateAfterReset : Prop :=
  ∀ cap : BufCap,
    (∀ off r, regAt off = some r →
      r.value (State.resetWith cap) =
        if off = 0x0C then (0x01#32 <<< 16) ||| BitVec.ofNat 32 cap.n else 0x00000000#32) ∧
    (State.resetWith cap).status.busy = false ∧ (State.resetWith cap).irq = false ∧
    ∀ b k, Memory.read ((State.resetWith cap).buf b) k = none

/-- R154: straight after reset FRAME_DECODE fails with FRAME_TOO_SHORT, TAG_DECODE with MALFORMED_TAG, TAG_ENCODE writes
00 00 and WLEN = 2, FRAME_ENCODE writes fourteen bytes 00 and WLEN = 14. -/
def Obligations.CommandsStraightAfterReset : Prop :=
  ∀ cap : BufCap,
    (∃ t, exec .frameDecode (issue (State.resetWith cap) (encode .frameDecode)) = .next t ∧
      t.status.word = 0x00000016#32 ∧ t.opState = (State.resetWith cap).opState) ∧
    (∃ t, exec .tagDecode (issue (State.resetWith cap) (encode .tagDecode)) = .next t ∧
      t.status.word = 0x00000026#32 ∧ t.opState = (State.resetWith cap).opState) ∧
    (∃ t, exec .tagEncode (issue (State.resetWith cap) (encode .tagEncode)) = .next t ∧
      t.status.word = 0x00000002#32 ∧ t.wlen = 2 ∧
      ∀ k, Memory.read t.wbuf k = if k < 2 then some 0x00 else none) ∧
    (∃ t, exec .frameEncode (issue (State.resetWith cap) (encode .frameEncode)) = .next t ∧
      t.status.word = 0x00000002#32 ∧ t.wlen = 14 ∧
      ∀ k, Memory.read t.wbuf k = if k < 14 then some 0x00 else none)

/-! ### Rules of the whole machine -/

/-- R20, R46, R59: the invariant holds after reset, at any capacity, and so at `State.reset`. -/
def Obligations.InvariantAtReset : Prop := (∀ cap : BufCap, (State.resetWith cap).Inv) ∧ State.reset.Inv

/-- R20, R46, R57, R59, R129: every step keeps the invariant: STATUS stays consistent, the buffers stay in canonical form,
and no byte is ever stored at or above BUF_CAP. -/
def Obligations.EveryStepKeepsTheInvariant : Prop :=
  ∀ s t : State, s.Inv → step s = .next t → t.Inv

/-- R6, R22, R148: no step, reset included, changes BUF_CAP, so CAPS reads the same constant for ever. -/
def Obligations.CapacityNeverChanges : Prop :=
  ∀ s t : State, step s = .next t → t.cap = s.cap ∧ Reg.caps.value t = Reg.caps.value s

/-- R58, R64: while BUSY = 1 no host step changes OPSTATE or PENDING, and the command stays in progress. -/
def Obligations.OpStateFrozenWhileBusy : Prop :=
  ∀ (s t : State) (ts : List Turn), s.status.busy = true → s.turns = .host :: ts → step s = .next t →
    t.opState = s.opState ∧ t.pending = s.pending ∧ t.status.busy = true

/-- R20, R156: VIOL is sticky: once 1, only a host write of STATUS with bit 16 = 1, or reset, makes it 0; and it becomes 1
only by a host write that is dropped: any BufWrite, or a RegWrite to CMD or OPSTATE, while BUSY, or a BufWrite at or above
BUF_CAP. -/
def Obligations.ViolationRecordIsSticky : Prop :=
  ∀ s t : State, step s = .next t →
    (s.status.viol = true → (∀ ts, s.turns ≠ .reset :: ts) →
      (∀ v rest, s.host = .op (.regWrite 0x04 v) :: rest → v.getLsbD 16 = false) → t.status.viol = true) ∧
    (s.status.viol = false → t.status.viol = true →
      ∃ o rest, s.host = .op o :: rest ∧
        ((∃ b i x, o = .bufWrite b i x ∧ (s.status.busy = true ∨ s.cap.n ≤ i)) ∨
         (∃ off v, o = .regWrite off v ∧ s.status.busy = true ∧
            off ∈ [0x00, 0x10, 0x14, 0x18, 0x1C, 0x20, 0x24, 0x28, 0x2C, 0x30])))

/-- R118, R122 (the fair schedule is log entry 6): a command in progress is taken up within the turns given to the machine
plus one, unless a step stops or reset is among the turns, and on the PENDING and OPSTATE it had at issue. -/
def Obligations.EngineStepIsEventuallyTaken : Prop :=
  ∀ s t : State, s.status.busy = true → .reset ∉ s.turns →
    Host.Core.run core (s.turns.length + 1) s = .next t →
    ∃ (k : Nat) (u : State) (ts : List Turn), k ≤ s.turns.length ∧ Host.Core.run core k s = .next u ∧
      u.status.busy = true ∧ u.pending = s.pending ∧ u.opState = s.opState ∧
      step u = engineCommand { u with turns := ts }

/-! ### What STATUS and the reads return, and what a command depends on -/

/-- R20, R128, R129: STATUS field by field, for every value of each: BUSY 0, DONE 1, ERR 2, ERRCODE 7:4, ERRCTX 9:8, VIOL
16, and every other bit 0. -/
def Obligations.StatusWordLayout : Prop :=
  ∀ st : Status,
    st.word.getLsbD 0 = st.busy ∧ st.word.getLsbD 1 = st.done ∧ st.word.getLsbD 2 = st.err ∧
    st.word.getLsbD 16 = st.viol ∧
    (∀ n : BitVec 4, (st.errCode, n) ∈ [(none, 0#4), (some .frameTooShort, 1#4), (some .malformedTag, 2#4),
        (some .invalidVlanId, 3#4), (some .inconsistentTagging, 4#4), (some .bufferOverflow, 5#4),
        (some .illegalCommand, 6#4)] → st.word.extractLsb' 4 4 = n) ∧
    (∀ n : BitVec 2, (st.errCtx, n) ∈ [(.none, 0#2), (.customer, 1#2), (.service, 2#2)] → st.word.extractLsb' 8 2 = n) ∧
    st.word.getLsbD 3 = false ∧ st.word.extractLsb' 10 6 = 0#6 ∧ st.word.extractLsb' 17 15 = 0#15

/-- R18, R21 to R32, R51 and, for a byte never written since reset, R150 and U3: with BUSY = 0 a read of a register returns
its fields, reserved bits 0, and a read below BUF_CAP the byte last written, or a free value where none has been. -/
def Obligations.HostReadsWhenIdle : Prop :=
  ∀ s : State, s.status.busy = false →
    busOp (.regRead 0x08) s = .next { s with reply := .word (if s.irqEn then 0x00000001#32 else 0x00000000#32) } ∧
    (∀ (off : Nat) (v : Half), (off, v) ∈ [(0x10, s.wlen), (0x14, s.plen), (0x18, s.dstHi), (0x20, s.srcHi), (0x28, s.etype)] →
      busOp (.regRead off) s = .next { s with reply := .word (v.setWidth 32) }) ∧
    (∀ (off : Nat) (v : Word), (off, v) ∈ [(0x1C, s.dstLo), (0x24, s.srcLo)] →
      busOp (.regRead off) s = .next { s with reply := .word v }) ∧
    (∀ (off : Nat) (t : TagReg), (off, t) ∈ [(0x2C, s.ctag), (0x30, s.stag)] →
      ∃ w : Word, busOp (.regRead off) s = .next { s with reply := .word w } ∧ w.extractLsb' 0 16 = t.vid ∧
        w.extractLsb' 16 3 = t.pcp ∧ w.getLsbD 19 = t.dei ∧ w.extractLsb' 20 11 = 0#11 ∧ w.getLsbD 31 = t.present) ∧
    ∀ (b : Buf) (i : Nat), i < s.cap.n →
      (∀ x, Memory.read (s.buf b) i = some x → busOp (.bufRead b i) s = .next { s with reply := .byte x }) ∧
      (Memory.read (s.buf b) i = none →
        busOp (.bufRead b i) s = .next { s with reply := .byte (Config.freeByte s.draws), draws := s.draws + 1 })

/-- R38, with what each command reads and writes from R80: the writes a command makes and the error it reports are a
function of the word in PENDING, of what that command reads and of BUF_CAP only. Two states that agree on those, whatever
else they hold, fault alike, or report the same error and change nothing else, or make the same writes. -/
def Obligations.ResultsDependOnlyOnReads : Prop :=
  ∀ s₁ s₂ : State, s₁.pending = s₂.pending → s₁.cap = s₂.cap →
    (∀ i, decodeCmd s₁.pending = some i → sameReads i s₁ s₂) →
    (∀ r, engineCommand s₁ = .fault r ↔ engineCommand s₂ = .fault r) ∧
    ∀ t₁, engineCommand s₁ = .next t₁ → ∃ t₂, engineCommand s₂ = .next t₂ ∧
      ((t₁.status = { s₁.status with busy := false, done := true } ∧
          t₂.status = { s₂.status with busy := false, done := true } ∧
          ∃ i, decodeCmd s₁.pending = some i ∧ sameWrites i t₁ t₂) ∨
       ∃ c x, t₁ = { s₁ with status := { s₁.status with busy := false, done := true, err := true, errCode := some c,
                                                         errCtx := x } } ∧
              t₂ = { s₂ with status := { s₂.status with busy := false, done := true, err := true, errCode := some c,
                                                         errCtx := x } })
end

