-- ==== Sys2Proof/Laws/Memory.lean ====
section
/-! SUPPORT. What the buffer operations do: a read after a write, the bytes a block write leaves, the canonical form they
keep, and when a command's guard lets it through. -/

namespace Sys2Proof.Machine

@[simp] theorem read_nil (a : Nat) : Memory.read [] a = none := rfl

/-- A read after a one-byte write: the byte written, or what stood there before. -/
theorem read_write (m : Memory) (a : Nat) (x : Byte) (i : Nat) :
    Memory.read (Memory.write m a x) i = if i = a then some x else Memory.read m i := by
  induction m with
  | nil => simp only [Memory.write, Memory.read, eq_comm]
  | cons c m ih =>
    obtain ⟨k, y⟩ := c
    simp only [Memory.write]
    by_cases hi : i = a
    · subst hi
      split
      · simp [Memory.read]
      · split
        · simp [Memory.read]
        · simp only [Memory.read, ih, if_true]; rw [if_neg (by omega)]
    · have hai : a ≠ i := fun h => hi h.symm
      split
      · simp [Memory.read, hai]
      · split
        · rename_i h; subst h; simp [Memory.read, hai]
        · simp only [Memory.read, ih, if_neg hi]

/-- A read after a block write: the block's byte inside the block, and what stood there before outside it. -/
theorem read_writeBytes (m : Memory) (a : Nat) (bs : List Byte) (i : Nat) :
    Memory.read (Memory.writeBytes m a bs) i =
      if a ≤ i ∧ i < a + bs.length then bs[i - a]? else Memory.read m i := by
  induction bs generalizing m a with
  | nil => simp only [Memory.writeBytes, List.length_nil]; rw [if_neg (by omega)]
  | cons x bs ih =>
    simp only [Memory.writeBytes, ih, read_write, List.length_cons]
    by_cases h : i = a
    · subst h; simp
    · by_cases h' : a + 1 ≤ i ∧ i < a + 1 + bs.length
      · rw [if_pos h', if_pos (by omega), show i - a = (i - (a + 1)) + 1 by omega, List.getElem?_cons_succ]
      · rw [if_neg h', if_neg h, if_neg (by omega)]

/-- A block write from index 0. -/
theorem read_writeBytes_zero (m : Memory) (bs : List Byte) (i : Nat) :
    Memory.read (Memory.writeBytes m 0 bs) i = if i < bs.length then bs[i]? else Memory.read m i := by
  simp [read_writeBytes]

/-! ### The canonical form -/

theorem risingFrom_write (m : Memory) (a : Nat) (x : Byte) (lo : Nat) (h : Memory.risingFrom lo m = true) (ha : lo ≤ a) :
    Memory.risingFrom lo (Memory.write m a x) = true := by
  induction m generalizing lo with
  | nil => simpa [Memory.write, Memory.risingFrom] using ha
  | cons c m ih =>
    obtain ⟨k, y⟩ := c
    simp only [Memory.risingFrom, Bool.and_eq_true, decide_eq_true_eq] at h
    simp only [Memory.write]
    split
    · simp only [Memory.risingFrom, Bool.and_eq_true, decide_eq_true_eq]; exact ⟨ha, by omega, h.2⟩
    · split
      · simp only [Memory.risingFrom, Bool.and_eq_true, decide_eq_true_eq]
        rename_i h2; subst h2; exact ⟨ha, h.2⟩
      · simp only [Memory.risingFrom, Bool.and_eq_true, decide_eq_true_eq]; exact ⟨h.1, ih _ h.2 (by omega)⟩

/-- A one-byte write keeps the canonical form. -/
theorem wf_write (m : Memory) (a : Nat) (x : Byte) (h : Memory.wf m = true) : Memory.wf (Memory.write m a x) = true :=
  risingFrom_write m a x 0 h (Nat.zero_le a)

/-- A block write keeps the canonical form. -/
theorem wf_writeBytes (m : Memory) (a : Nat) (bs : List Byte) (h : Memory.wf m = true) :
    Memory.wf (Memory.writeBytes m a bs) = true := by
  induction bs generalizing m a with
  | nil => exact h
  | cons x bs ih => exact ih _ _ (wf_write m a x h)

/-- Nothing is listed after reset, which is canonical. -/
@[simp] theorem wf_nil : Memory.wf [] = true := rfl

@[simp] theorem below_nil (n : Nat) : Memory.below [] n = true := rfl

/-- A one-byte write below the capacity keeps every index below it. -/
theorem below_write (m : Memory) (a n : Nat) (x : Byte) (h : Memory.below m n = true) (ha : a < n) :
    Memory.below (Memory.write m a x) n = true := by
  induction m with
  | nil => simpa [Memory.write, Memory.below] using ha
  | cons c m ih =>
    obtain ⟨k, y⟩ := c
    simp only [Memory.below, List.all_cons, Bool.and_eq_true, decide_eq_true_eq] at h ih
    simp only [Memory.write]
    split
    · simp only [Memory.below, List.all_cons, Bool.and_eq_true, decide_eq_true_eq]; exact ⟨ha, h.1, h.2⟩
    · split
      · simp only [Memory.below, List.all_cons, Bool.and_eq_true, decide_eq_true_eq]; exact ⟨ha, h.2⟩
      · simp only [Memory.below, List.all_cons, Bool.and_eq_true, decide_eq_true_eq]; exact ⟨h.1, ih h.2⟩

/-- A block write that ends at or below the capacity keeps every index below it. -/
theorem below_writeBytes (m : Memory) (a n : Nat) (bs : List Byte) (h : Memory.below m n = true)
    (ha : a + bs.length ≤ n) : Memory.below (Memory.writeBytes m a bs) n = true := by
  induction bs generalizing m a with
  | nil => exact h
  | cons x bs ih =>
    simp only [List.length_cons] at ha
    exact ih _ _ (below_write m a n x h (by omega)) (by omega)

/-! ### The byte sequence a command is given -/

@[simp] theorem bytes_length (m : Memory) (a n : Nat) : (Memory.bytes m a n).length = n := by
  induction n generalizing a with
  | zero => rfl
  | succ n ih => simp [Memory.bytes, ih]

/-- Byte `i` of the sequence: the buffer's byte, or the free value where nothing has been written. -/
theorem bytes_getElem? (m : Memory) (a n i : Nat) :
    (Memory.bytes m a n)[i]? =
      if i < n then some ((Memory.read m (a + i)).getD (Config.unwritten (a + i))) else none := by
  induction n generalizing a i with
  | zero => simp [Memory.bytes]
  | succ n ih =>
    cases i with
    | zero => simp [Memory.bytes]
    | succ i => simp [Memory.bytes, ih, show a + 1 + i = a + (i + 1) by omega]

/-- A written byte stands in the sequence as it is in the buffer. -/
theorem bytes_getElem?_of_read (m : Memory) (n i : Nat) (x : Byte) (hi : i < n) (h : Memory.read m i = some x) :
    (Memory.bytes m 0 n)[i]? = some x := by
  rw [bytes_getElem?, if_pos hi, Nat.zero_add, h]; rfl

/-- Two buffers that agree below `n` give the same sequence. -/
theorem bytes_congr (m w : Memory) (n : Nat) (h : ∀ k, k < n → Memory.read w k = Memory.read m k) :
    Memory.bytes w 0 n = Memory.bytes m 0 n := by
  apply List.ext_getElem?
  intro i
  simp only [bytes_getElem?, Nat.zero_add]
  split
  · rename_i hi; rw [h i hi]
  · rfl

/-- A buffer that holds a whole sequence gives that sequence. -/
theorem bytes_of_holds (m : Memory) (b : List Byte) (h : Memory.holds m b []) : Memory.bytes m 0 b.length = b := by
  apply List.ext_getElem?
  intro i
  rw [bytes_getElem?, Nat.zero_add]
  split
  · rename_i hi; rw [h i hi (by simp), List.getElem?_eq_getElem hi]; rfl
  · rename_i hi; rw [List.getElem?_eq_none (by omega)]

/-! ### The guard -/

/-- The guard passes exactly when every examined byte has been written. -/
theorem firstUndefined_eq_none (m : Memory) (is : List Nat) :
    Memory.firstUndefined m is = none ↔ ∀ i ∈ is, (Memory.read m i).isSome = true := by
  simp [Memory.firstUndefined, List.find?_eq_none, Option.isSome_iff_ne_none]

/-- The byte a guard stops at is examined and was never written. -/
theorem firstUndefined_eq_some (m : Memory) (is : List Nat) (i : Nat) (h : Memory.firstUndefined m is = some i) :
    i ∈ is ∧ Memory.read m i = none := by
  refine ⟨List.mem_of_find?_eq_some h, ?_⟩
  simpa using List.find?_some h

/-- Two buffers that agree on the examined bytes have the same guard. -/
theorem firstUndefined_congr (m w : Memory) (is : List Nat) (h : ∀ k ∈ is, Memory.read w k = Memory.read m k) :
    Memory.firstUndefined w is = Memory.firstUndefined m is := by
  induction is with
  | nil => rfl
  | cons i is ih =>
    have hi := h i (by simp)
    have := ih (fun k hk => h k (by simp [hk]))
    simp only [Memory.firstUndefined, List.find?_cons, hi] at this ⊢
    split <;> simp_all

/-- What a guarded command can answer: a fault at an unwritten examined byte, or its completion. -/
theorem examine_cases (s : State) (b : Buf) (is : List Nat) (r : Except CodecError State) :
    (∃ i, i ∈ is ∧ Memory.read (s.buf b) i = none ∧ Memory.firstUndefined (s.buf b) is = some i ∧
        examine s b is r = .fault (.undefinedByte b i)) ∨
      ((∀ i ∈ is, (Memory.read (s.buf b) i).isSome = true) ∧ examine s b is r = .next (complete s r)) := by
  unfold examine
  cases h : Memory.firstUndefined (s.buf b) is with
  | some i => exact .inl ⟨i, (firstUndefined_eq_some _ _ _ h).1, (firstUndefined_eq_some _ _ _ h).2, rfl, rfl⟩
  | none => exact .inr ⟨(firstUndefined_eq_none _ _).1 h, rfl⟩

/-- The guard of a command all of whose examined bytes have been written. -/
theorem examine_of_defined (s : State) (b : Buf) (is : List Nat) (r : Except CodecError State)
    (h : ∀ i ∈ is, (Memory.read (s.buf b) i).isSome = true) : examine s b is r = .next (complete s r) := by
  simp [examine, (firstUndefined_eq_none _ _).2 h]

end Sys2Proof.Machine
end

