-- ==== Sys2Proof/Laws/State.lean ====
section
/-! SUPPORT. One lemma per field per named update of State, and per field of STATUS per way it changes, so that no later
proof unfolds a record update. -/

namespace Sys2Proof.Machine

/-! `issue` -/

@[simp] theorem issue_cap (s : State) (v : Word) : (issue s v).cap = s.cap := rfl
@[simp] theorem issue_status (s : State) (v : Word) : (issue s v).status = s.status.issue := rfl
@[simp] theorem issue_irqEn (s : State) (v : Word) : (issue s v).irqEn = s.irqEn := rfl
@[simp] theorem issue_wlen (s : State) (v : Word) : (issue s v).wlen = s.wlen := rfl
@[simp] theorem issue_plen (s : State) (v : Word) : (issue s v).plen = s.plen := rfl
@[simp] theorem issue_dstHi (s : State) (v : Word) : (issue s v).dstHi = s.dstHi := rfl
@[simp] theorem issue_dstLo (s : State) (v : Word) : (issue s v).dstLo = s.dstLo := rfl
@[simp] theorem issue_srcHi (s : State) (v : Word) : (issue s v).srcHi = s.srcHi := rfl
@[simp] theorem issue_srcLo (s : State) (v : Word) : (issue s v).srcLo = s.srcLo := rfl
@[simp] theorem issue_etype (s : State) (v : Word) : (issue s v).etype = s.etype := rfl
@[simp] theorem issue_ctag (s : State) (v : Word) : (issue s v).ctag = s.ctag := rfl
@[simp] theorem issue_stag (s : State) (v : Word) : (issue s v).stag = s.stag := rfl
@[simp] theorem issue_wbuf (s : State) (v : Word) : (issue s v).wbuf = s.wbuf := rfl
@[simp] theorem issue_pbuf (s : State) (v : Word) : (issue s v).pbuf = s.pbuf := rfl
@[simp] theorem issue_pending (s : State) (v : Word) : (issue s v).pending = v := rfl
@[simp] theorem issue_host (s : State) (v : Word) : (issue s v).host = s.host := rfl
@[simp] theorem issue_turns (s : State) (v : Word) : (issue s v).turns = s.turns := rfl
@[simp] theorem issue_reply (s : State) (v : Word) : (issue s v).reply = s.reply := rfl
@[simp] theorem issue_draws (s : State) (v : Word) : (issue s v).draws = s.draws := rfl

/-! `succeed` -/

@[simp] theorem succeed_cap (s : State) : (succeed s).cap = s.cap := rfl
@[simp] theorem succeed_status (s : State) : (succeed s).status = s.status.succeed := rfl
@[simp] theorem succeed_irqEn (s : State) : (succeed s).irqEn = s.irqEn := rfl
@[simp] theorem succeed_wlen (s : State) : (succeed s).wlen = s.wlen := rfl
@[simp] theorem succeed_plen (s : State) : (succeed s).plen = s.plen := rfl
@[simp] theorem succeed_dstHi (s : State) : (succeed s).dstHi = s.dstHi := rfl
@[simp] theorem succeed_dstLo (s : State) : (succeed s).dstLo = s.dstLo := rfl
@[simp] theorem succeed_srcHi (s : State) : (succeed s).srcHi = s.srcHi := rfl
@[simp] theorem succeed_srcLo (s : State) : (succeed s).srcLo = s.srcLo := rfl
@[simp] theorem succeed_etype (s : State) : (succeed s).etype = s.etype := rfl
@[simp] theorem succeed_ctag (s : State) : (succeed s).ctag = s.ctag := rfl
@[simp] theorem succeed_stag (s : State) : (succeed s).stag = s.stag := rfl
@[simp] theorem succeed_wbuf (s : State) : (succeed s).wbuf = s.wbuf := rfl
@[simp] theorem succeed_pbuf (s : State) : (succeed s).pbuf = s.pbuf := rfl
@[simp] theorem succeed_pending (s : State) : (succeed s).pending = s.pending := rfl
@[simp] theorem succeed_host (s : State) : (succeed s).host = s.host := rfl
@[simp] theorem succeed_turns (s : State) : (succeed s).turns = s.turns := rfl
@[simp] theorem succeed_reply (s : State) : (succeed s).reply = s.reply := rfl
@[simp] theorem succeed_draws (s : State) : (succeed s).draws = s.draws := rfl

/-! `raiseError` -/

@[simp] theorem raiseError_cap (s : State) (e : CodecError) : (raiseError s e).cap = s.cap := rfl
@[simp] theorem raiseError_status (s : State) (e : CodecError) : (raiseError s e).status = s.status.fail e := rfl
@[simp] theorem raiseError_irqEn (s : State) (e : CodecError) : (raiseError s e).irqEn = s.irqEn := rfl
@[simp] theorem raiseError_wlen (s : State) (e : CodecError) : (raiseError s e).wlen = s.wlen := rfl
@[simp] theorem raiseError_plen (s : State) (e : CodecError) : (raiseError s e).plen = s.plen := rfl
@[simp] theorem raiseError_dstHi (s : State) (e : CodecError) : (raiseError s e).dstHi = s.dstHi := rfl
@[simp] theorem raiseError_dstLo (s : State) (e : CodecError) : (raiseError s e).dstLo = s.dstLo := rfl
@[simp] theorem raiseError_srcHi (s : State) (e : CodecError) : (raiseError s e).srcHi = s.srcHi := rfl
@[simp] theorem raiseError_srcLo (s : State) (e : CodecError) : (raiseError s e).srcLo = s.srcLo := rfl
@[simp] theorem raiseError_etype (s : State) (e : CodecError) : (raiseError s e).etype = s.etype := rfl
@[simp] theorem raiseError_ctag (s : State) (e : CodecError) : (raiseError s e).ctag = s.ctag := rfl
@[simp] theorem raiseError_stag (s : State) (e : CodecError) : (raiseError s e).stag = s.stag := rfl
@[simp] theorem raiseError_wbuf (s : State) (e : CodecError) : (raiseError s e).wbuf = s.wbuf := rfl
@[simp] theorem raiseError_pbuf (s : State) (e : CodecError) : (raiseError s e).pbuf = s.pbuf := rfl
@[simp] theorem raiseError_pending (s : State) (e : CodecError) : (raiseError s e).pending = s.pending := rfl
@[simp] theorem raiseError_host (s : State) (e : CodecError) : (raiseError s e).host = s.host := rfl
@[simp] theorem raiseError_turns (s : State) (e : CodecError) : (raiseError s e).turns = s.turns := rfl
@[simp] theorem raiseError_reply (s : State) (e : CodecError) : (raiseError s e).reply = s.reply := rfl
@[simp] theorem raiseError_draws (s : State) (e : CodecError) : (raiseError s e).draws = s.draws := rfl

/-! `dropWrite` -/

@[simp] theorem dropWrite_cap (s : State) : (dropWrite s).cap = s.cap := rfl
@[simp] theorem dropWrite_status (s : State) : (dropWrite s).status = s.status.violate := rfl
@[simp] theorem dropWrite_irqEn (s : State) : (dropWrite s).irqEn = s.irqEn := rfl
@[simp] theorem dropWrite_wlen (s : State) : (dropWrite s).wlen = s.wlen := rfl
@[simp] theorem dropWrite_plen (s : State) : (dropWrite s).plen = s.plen := rfl
@[simp] theorem dropWrite_dstHi (s : State) : (dropWrite s).dstHi = s.dstHi := rfl
@[simp] theorem dropWrite_dstLo (s : State) : (dropWrite s).dstLo = s.dstLo := rfl
@[simp] theorem dropWrite_srcHi (s : State) : (dropWrite s).srcHi = s.srcHi := rfl
@[simp] theorem dropWrite_srcLo (s : State) : (dropWrite s).srcLo = s.srcLo := rfl
@[simp] theorem dropWrite_etype (s : State) : (dropWrite s).etype = s.etype := rfl
@[simp] theorem dropWrite_ctag (s : State) : (dropWrite s).ctag = s.ctag := rfl
@[simp] theorem dropWrite_stag (s : State) : (dropWrite s).stag = s.stag := rfl
@[simp] theorem dropWrite_wbuf (s : State) : (dropWrite s).wbuf = s.wbuf := rfl
@[simp] theorem dropWrite_pbuf (s : State) : (dropWrite s).pbuf = s.pbuf := rfl
@[simp] theorem dropWrite_pending (s : State) : (dropWrite s).pending = s.pending := rfl
@[simp] theorem dropWrite_host (s : State) : (dropWrite s).host = s.host := rfl
@[simp] theorem dropWrite_turns (s : State) : (dropWrite s).turns = s.turns := rfl
@[simp] theorem dropWrite_reply (s : State) : (dropWrite s).reply = .none := rfl
@[simp] theorem dropWrite_draws (s : State) : (dropWrite s).draws = s.draws := rfl

/-! `writeFrame` -/

@[simp] theorem writeFrame_cap (s : State) (f : Frame) : (writeFrame s f).cap = s.cap := rfl
@[simp] theorem writeFrame_status (s : State) (f : Frame) : (writeFrame s f).status = s.status := rfl
@[simp] theorem writeFrame_irqEn (s : State) (f : Frame) : (writeFrame s f).irqEn = s.irqEn := rfl
@[simp] theorem writeFrame_wlen (s : State) (f : Frame) : (writeFrame s f).wlen = s.wlen := rfl
@[simp] theorem writeFrame_plen (s : State) (f : Frame) : (writeFrame s f).plen = BitVec.ofNat 16 f.payload.length := rfl
@[simp] theorem writeFrame_dstHi (s : State) (f : Frame) : (writeFrame s f).dstHi = f.dst.hi := rfl
@[simp] theorem writeFrame_dstLo (s : State) (f : Frame) : (writeFrame s f).dstLo = f.dst.lo := rfl
@[simp] theorem writeFrame_srcHi (s : State) (f : Frame) : (writeFrame s f).srcHi = f.src.hi := rfl
@[simp] theorem writeFrame_srcLo (s : State) (f : Frame) : (writeFrame s f).srcLo = f.src.lo := rfl
@[simp] theorem writeFrame_etype (s : State) (f : Frame) : (writeFrame s f).etype = f.etype := rfl
@[simp] theorem writeFrame_ctag (s : State) (f : Frame) : (writeFrame s f).ctag = tagReg f.ctag := rfl
@[simp] theorem writeFrame_stag (s : State) (f : Frame) : (writeFrame s f).stag = tagReg f.stag := rfl
@[simp] theorem writeFrame_wbuf (s : State) (f : Frame) : (writeFrame s f).wbuf = s.wbuf := rfl
@[simp] theorem writeFrame_pbuf (s : State) (f : Frame) : (writeFrame s f).pbuf = Memory.writeBytes s.pbuf 0 f.payload := rfl
@[simp] theorem writeFrame_pending (s : State) (f : Frame) : (writeFrame s f).pending = s.pending := rfl
@[simp] theorem writeFrame_host (s : State) (f : Frame) : (writeFrame s f).host = s.host := rfl
@[simp] theorem writeFrame_turns (s : State) (f : Frame) : (writeFrame s f).turns = s.turns := rfl
@[simp] theorem writeFrame_reply (s : State) (f : Frame) : (writeFrame s f).reply = s.reply := rfl
@[simp] theorem writeFrame_draws (s : State) (f : Frame) : (writeFrame s f).draws = s.draws := rfl

/-! `State.setBuf` -/

@[simp] theorem setBuf_cap (s : State) (b : Buf) (m : Memory) : (s.setBuf b m).cap = s.cap := by cases b <;> rfl
@[simp] theorem setBuf_status (s : State) (b : Buf) (m : Memory) : (s.setBuf b m).status = s.status := by cases b <;> rfl
@[simp] theorem setBuf_irqEn (s : State) (b : Buf) (m : Memory) : (s.setBuf b m).irqEn = s.irqEn := by cases b <;> rfl
@[simp] theorem setBuf_wlen (s : State) (b : Buf) (m : Memory) : (s.setBuf b m).wlen = s.wlen := by cases b <;> rfl
@[simp] theorem setBuf_plen (s : State) (b : Buf) (m : Memory) : (s.setBuf b m).plen = s.plen := by cases b <;> rfl
@[simp] theorem setBuf_dstHi (s : State) (b : Buf) (m : Memory) : (s.setBuf b m).dstHi = s.dstHi := by cases b <;> rfl
@[simp] theorem setBuf_dstLo (s : State) (b : Buf) (m : Memory) : (s.setBuf b m).dstLo = s.dstLo := by cases b <;> rfl
@[simp] theorem setBuf_srcHi (s : State) (b : Buf) (m : Memory) : (s.setBuf b m).srcHi = s.srcHi := by cases b <;> rfl
@[simp] theorem setBuf_srcLo (s : State) (b : Buf) (m : Memory) : (s.setBuf b m).srcLo = s.srcLo := by cases b <;> rfl
@[simp] theorem setBuf_etype (s : State) (b : Buf) (m : Memory) : (s.setBuf b m).etype = s.etype := by cases b <;> rfl
@[simp] theorem setBuf_ctag (s : State) (b : Buf) (m : Memory) : (s.setBuf b m).ctag = s.ctag := by cases b <;> rfl
@[simp] theorem setBuf_stag (s : State) (b : Buf) (m : Memory) : (s.setBuf b m).stag = s.stag := by cases b <;> rfl
@[simp] theorem setBuf_pending (s : State) (b : Buf) (m : Memory) : (s.setBuf b m).pending = s.pending := by cases b <;> rfl
@[simp] theorem setBuf_host (s : State) (b : Buf) (m : Memory) : (s.setBuf b m).host = s.host := by cases b <;> rfl
@[simp] theorem setBuf_turns (s : State) (b : Buf) (m : Memory) : (s.setBuf b m).turns = s.turns := by cases b <;> rfl
@[simp] theorem setBuf_reply (s : State) (b : Buf) (m : Memory) : (s.setBuf b m).reply = s.reply := by cases b <;> rfl
@[simp] theorem setBuf_draws (s : State) (b : Buf) (m : Memory) : (s.setBuf b m).draws = s.draws := by cases b <;> rfl
@[simp] theorem setBuf_buf_self (s : State) (b : Buf) (m : Memory) : (s.setBuf b m).buf b = m := by cases b <;> rfl
theorem setBuf_buf_of_ne (s : State) (b c : Buf) (m : Memory) (h : c ≠ b) : (s.setBuf b m).buf c = s.buf c := by
  cases b <;> cases c <;> first | rfl | exact absurd rfl h
@[simp] theorem buf_wbuf (s : State) : s.buf .wbuf = s.wbuf := rfl
@[simp] theorem buf_pbuf (s : State) : s.buf .pbuf = s.pbuf := rfl

/-! `Status.issue` -/

@[simp] theorem status_issue_busy (st : Status) : (st.issue).busy = true := rfl
@[simp] theorem status_issue_done (st : Status) : (st.issue).done = false := rfl
@[simp] theorem status_issue_err (st : Status) : (st.issue).err = false := rfl
@[simp] theorem status_issue_errCode (st : Status) : (st.issue).errCode = none := rfl
@[simp] theorem status_issue_errCtx (st : Status) : (st.issue).errCtx = .none := rfl
@[simp] theorem status_issue_viol (st : Status) : (st.issue).viol = st.viol := rfl

/-! `Status.succeed` -/

@[simp] theorem status_succeed_busy (st : Status) : (st.succeed).busy = false := rfl
@[simp] theorem status_succeed_done (st : Status) : (st.succeed).done = true := rfl
@[simp] theorem status_succeed_err (st : Status) : (st.succeed).err = st.err := rfl
@[simp] theorem status_succeed_errCode (st : Status) : (st.succeed).errCode = st.errCode := rfl
@[simp] theorem status_succeed_errCtx (st : Status) : (st.succeed).errCtx = st.errCtx := rfl
@[simp] theorem status_succeed_viol (st : Status) : (st.succeed).viol = st.viol := rfl

/-! `Status.fail` -/

@[simp] theorem status_fail_busy (st : Status) (e : CodecError) : (st.fail e).busy = false := rfl
@[simp] theorem status_fail_done (st : Status) (e : CodecError) : (st.fail e).done = true := rfl
@[simp] theorem status_fail_err (st : Status) (e : CodecError) : (st.fail e).err = true := rfl
@[simp] theorem status_fail_errCode (st : Status) (e : CodecError) : (st.fail e).errCode = some e.code := rfl
@[simp] theorem status_fail_errCtx (st : Status) (e : CodecError) : (st.fail e).errCtx = e.ctx := rfl
@[simp] theorem status_fail_viol (st : Status) (e : CodecError) : (st.fail e).viol = st.viol := rfl

/-! `Status.violate` -/

@[simp] theorem status_violate_busy (st : Status) : (st.violate).busy = st.busy := rfl
@[simp] theorem status_violate_done (st : Status) : (st.violate).done = st.done := rfl
@[simp] theorem status_violate_err (st : Status) : (st.violate).err = st.err := rfl
@[simp] theorem status_violate_errCode (st : Status) : (st.violate).errCode = st.errCode := rfl
@[simp] theorem status_violate_errCtx (st : Status) : (st.violate).errCtx = st.errCtx := rfl
@[simp] theorem status_violate_viol (st : Status) : (st.violate).viol = true := rfl

/-! `Status.writeOneToClear` -/

@[simp] theorem status_writeOneToClear_busy (st : Status) (v : Word) : (st.writeOneToClear v).busy = st.busy := rfl
@[simp] theorem status_writeOneToClear_done (st : Status) (v : Word) : (st.writeOneToClear v).done = (st.done && !v.getLsbD 1) := rfl
@[simp] theorem status_writeOneToClear_err (st : Status) (v : Word) : (st.writeOneToClear v).err = st.err := rfl
@[simp] theorem status_writeOneToClear_errCode (st : Status) (v : Word) : (st.writeOneToClear v).errCode = st.errCode := rfl
@[simp] theorem status_writeOneToClear_errCtx (st : Status) (v : Word) : (st.writeOneToClear v).errCtx = st.errCtx := rfl
@[simp] theorem status_writeOneToClear_viol (st : Status) (v : Word) : (st.writeOneToClear v).viol = (st.viol && !v.getLsbD 16) := rfl

end Sys2Proof.Machine
end

