-- ==== Sys2Proof/Laws/Codec.lean ====
section
/-! SUPPORT. Spec lemmas of byte order, of the tag codec on each kind of input, and of the words of registers. -/

namespace Sys2Proof.Machine

/-- The two wire bytes of a 16-bit number give it back. -/
theorem be16_extract (v : Half) : be16 (v.extractLsb' 8 8) (v.extractLsb' 0 8) = v := by
  apply BitVec.eq_of_getLsbD_eq; intro i hi
  interval_cases i <;> simp [be16]

/-- The more significant byte of a big-endian pair is the first. -/
theorem extract_be16_hi (x y : Byte) : (be16 x y).extractLsb' 8 8 = x := by
  apply BitVec.eq_of_getLsbD_eq; intro i hi
  interval_cases i <;> simp [be16]

/-- The less significant byte of a big-endian pair is the second. -/
theorem extract_be16_lo (x y : Byte) : (be16 x y).extractLsb' 0 8 = y := by
  apply BitVec.eq_of_getLsbD_eq; intro i hi
  interval_cases i <;> simp [be16]

/-- Writing a number read from two bytes gives the two bytes. -/
theorem bytes16_be16 (x y : Byte) : bytes16 (be16 x y) = [x, y] := by
  simp [bytes16, extract_be16_hi, extract_be16_lo]

/-- Two byte pairs with the same number are the same pair. -/
theorem be16_inj (x y x' y' : Byte) : be16 x y = be16 x' y' ↔ x = x' ∧ y = y' := by
  constructor
  · intro h
    exact ⟨by rw [← extract_be16_hi x y, h, extract_be16_hi], by rw [← extract_be16_lo x y, h, extract_be16_lo]⟩
  · rintro ⟨rfl, rfl⟩; rfl

/-- An address packed into its two registers is read back (R25 to R28, R33). -/
theorem regAddr_pack (a : HwAddr) : regAddr a.hi a.lo = a := by
  obtain ⟨b0, b1, b2, b3, b4, b5⟩ := a
  simp only [regAddr, HwAddr.hi, HwAddr.lo, extract_be16_hi, extract_be16_lo, HwAddr.mk.injEq, true_and]
  refine ⟨?_, ?_, ?_, ?_⟩ <;> (apply BitVec.eq_of_getLsbD_eq; intro i hi; interval_cases i <;> simp [be32])

/-- A 12-bit VLAN ID keeps its value in the 16-bit field. -/
theorem toNat_vid12 (v : BitVec 12) : (v.setWidth 16).toNat = v.toNat := by
  simp; omega

/-- A valid VLAN ID is a 12-bit one. -/
theorem exists_vid12 (v : Half) (h : v.toNat ≤ 4095) : ∃ w : BitVec 12, v = w.setWidth 16 := by
  refine ⟨v.setWidth 12, ?_⟩
  apply BitVec.eq_of_toNat_eq
  rw [toNat_vid12]; simp; omega

/-- A 12-bit VLAN ID is valid. -/
theorem vid12_valid (v : BitVec 12) : ¬ vidMax < (v.setWidth 16).toNat := by
  rw [toNat_vid12, vidMax]; omega

/-- tagDecode of two bytes: the bit fields of R72, and never an error (R89). -/
theorem tagDecode_pair (b0 b1 : Byte) (ctx : ErrCtx) :
    tagDecode [b0, b1] ctx =
      .ok { pcp := b0.extractLsb' 5 3, dei := b0.getLsbD 4,
            vid := ((be16 b0 b1).setWidth 12).setWidth 16 } := by
  have hp : ((be16 b0 b1) >>> 13).setWidth 3 = b0.extractLsb' 5 3 := by
    apply BitVec.eq_of_getLsbD_eq; intro i hi
    interval_cases i <;> simp [be16]
  have hd : ((be16 b0 b1 &&& 0x1000#16) != 0) = b0.getLsbD 4 := by
    have : be16 b0 b1 &&& 0x1000#16 = if b0.getLsbD 4 then 0x1000#16 else 0#16 := by
      apply BitVec.eq_of_getLsbD_eq; intro i hi
      cases h : b0.getLsbD 4 <;> interval_cases i <;> simp [be16] <;> simpa using h
    rw [this]; cases b0.getLsbD 4 <;> decide
  have hv : be16 b0 b1 &&& 0x0FFF#16 = ((be16 b0 b1).setWidth 12).setWidth 16 := by
    apply BitVec.eq_of_getLsbD_eq; intro i hi
    interval_cases i <;> simp
  simp only [tagDecode, hp, hd, hv, if_neg (vid12_valid _)]

/-- tagDecode of anything but two bytes (R87). -/
theorem tagDecode_of_length_ne (b : List Byte) (ctx : ErrCtx) (h : b.length ≠ 2) :
    tagDecode b ctx = .error { code := .malformedTag, ctx := ctx } := by
  match b, h with
  | [], _ => rfl
  | [_], _ => rfl
  | _ :: _ :: _ :: _, _ => rfl

/-- tagDecode reads the fields a tag body was built from (R72, R73). -/
theorem tagDecode_tagBody (p : BitVec 3) (d : Bool) (v : BitVec 12) (ctx : ErrCtx) :
    tagDecode (tagBody p d v) ctx = .ok { pcp := p, dei := d, vid := v.setWidth 16 } := by
  rw [tagBody, tagDecode_pair]
  congr 2
  · apply BitVec.eq_of_getLsbD_eq; intro i hi
    cases d <;> interval_cases i <;> simp
  · cases d <;> simp
  · congr 1
    apply BitVec.eq_of_getLsbD_eq; intro i hi
    cases d <;> interval_cases i <;> simp [be16]

/-- tagEncode of a tag with a 12-bit VLAN ID is its tag body (R72, R74). -/
theorem tagEncode_vid12 (p : BitVec 3) (d : Bool) (v : BitVec 12) (ctx : ErrCtx) :
    tagEncode { pcp := p, dei := d, vid := v.setWidth 16 } ctx = .ok (tagBody p d v) := by
  simp only [tagEncode, if_neg (vid12_valid v), bytes16, tagBody, Except.ok.injEq, List.cons.injEq, and_true]
  constructor <;> (apply BitVec.eq_of_getLsbD_eq; intro i hi; cases d <;> interval_cases i <;> simp)

/-- tagEncode of an invalid tag (R88). -/
theorem tagEncode_invalid (t : VlanTag) (ctx : ErrCtx) (h : 4095 < t.vid.toNat) :
    tagEncode t ctx = .error { code := .invalidVlanId, ctx := ctx } := by
  rw [tagEncode, if_pos (by simpa [vidMax] using h)]

/-- Every two bytes are a tag body (R73). -/
theorem exists_tagBody (b : List Byte) (h : b.length = 2) : ∃ p d v, b = tagBody p d v := by
  match b, h with
  | [x, y], _ =>
    refine ⟨x.extractLsb' 5 3, x.getLsbD 4, (be16 x y).setWidth 12, ?_⟩
    simp only [tagBody, List.cons.injEq, and_true]
    constructor <;> (apply BitVec.eq_of_getLsbD_eq; intro i hi; interval_cases i <;> cases hx : x.getLsbD 4 <;> simp [be16])
/-! How a register word keeps its fields and drops its reserved bits (R18). -/

theorem bit_eq (b : Bool) : bit b = (BitVec.ofBool b).setWidth 32 := by cases b <;> rfl

/-- A one-bit field at bit 0. -/
theorem bit_getLsbD_zero (v : Word) : bit (v.getLsbD 0) = v &&& 0x00000001#32 := by
  rw [bit_eq]
  apply BitVec.eq_of_getLsbD_eq
  intro i hi
  interval_cases i <;> simp

/-- A 16-bit field at bits 15:0. -/
theorem low_half (v : Word) : (v.extractLsb' 0 16).setWidth 32 = v &&& 0x0000FFFF#32 := by
  apply BitVec.eq_of_getLsbD_eq
  intro i hi
  interval_cases i <;> simp

/-- A tag register's word after a host write: the reserved bits 30:20 are gone. -/
theorem tagReg_word_ofWord (v : Word) : (TagReg.ofWord v).word = v &&& 0x800FFFFF#32 := by
  simp only [TagReg.word, TagReg.ofWord, bit_eq]
  apply BitVec.eq_of_getLsbD_eq
  intro i hi
  simp only [BitVec.getLsbD_or, BitVec.getLsbD_shiftLeft, BitVec.getLsbD_setWidth, BitVec.getLsbD_extractLsb',
    BitVec.getLsbD_and, BitVec.getLsbD_ofBool]
  have mask : ∀ i : Fin 32, (0x800FFFFF#32).getLsbD i = decide (i.val < 20 ∨ i.val = 31) := by decide
  rw [mask ⟨i, hi⟩]
  interval_cases i <;> simp

end Sys2Proof.Machine
end

