-- ==== Sys2Proof/Laws/Frame.lean ====
section
/-! SUPPORT. Spec lemmas of frameDecode and frameEncode: one per layout, and the six cases a decode can be. -/

namespace Sys2Proof.Machine

/-- Below 14 bytes (R98). -/
theorem frameDecode_short (b : List Byte) (h : b.length < 14) :
    frameDecode b = .error { code := .frameTooShort, ctx := .none } := by
  rw [frameDecode, if_pos h]

/-- The candidate of a sequence long enough to hold one. -/
theorem candidate_layout (dst src : HwAddr) (c0 c1 : Byte) (rest : List Byte) :
    candidate (dst.bytes ++ src.bytes ++ [c0, c1] ++ rest) = be16 c0 c1 := (rfl)

/-- A sequence of at least 14 bytes is two addresses, a candidate and a rest. -/
theorem exists_layout (b : List Byte) (h : 14 ≤ b.length) :
    ∃ (dst src : HwAddr) (c0 c1 : Byte) (rest : List Byte), b = dst.bytes ++ src.bytes ++ [c0, c1] ++ rest := by
  match b, h with
  | a0 :: a1 :: a2 :: a3 :: a4 :: a5 :: s0 :: s1 :: s2 :: s3 :: s4 :: s5 :: c0 :: c1 :: rest, _ =>
    exact ⟨⟨a0, a1, a2, a3, a4, a5⟩, ⟨s0, s1, s2, s3, s4, s5⟩, c0, c1, rest, rfl⟩

/-- frameDecode of an untagged layout (R76, R100). -/
theorem frameDecode_untagged (dst src : HwAddr) (c0 c1 : Byte) (p : List Byte)
    (h1 : be16 c0 c1 ≠ tpidCustomer) (h2 : be16 c0 c1 ≠ tpidService) :
    frameDecode (dst.bytes ++ src.bytes ++ [c0, c1] ++ p) =
      .ok { dst := dst, src := src, ctag := none, stag := none, etype := be16 c0 c1, payload := p } := by
  simp only [frameDecode, candidate_layout]
  rw [if_neg (by simp [HwAddr.bytes]), if_neg h1, if_neg h2]
  simp [HwAddr.bytes, slice, addrAt, byteAt, pure, Except.pure]

/-- An 802.1Q TPID with fewer than 18 bytes (R98). -/
theorem frameDecode_single_short (dst src : HwAddr) (rest : List Byte) (h : rest.length < 4) :
    frameDecode (dst.bytes ++ src.bytes ++ [0x81, 0x00] ++ rest) = .error { code := .frameTooShort, ctx := .customer } := by
  simp only [frameDecode, candidate_layout]
  rw [if_neg (by simp [HwAddr.bytes]), if_pos (show be16 0x81 0x00 = tpidCustomer by decide),
    if_pos (by simp [HwAddr.bytes]; omega)]

/-- frameDecode of a single-tagged layout (R77, R101). -/
theorem frameDecode_single (dst src : HwAddr) (p : BitVec 3) (d : Bool) (v : BitVec 12) (e0 e1 : Byte) (pl : List Byte) :
    frameDecode (dst.bytes ++ src.bytes ++ [0x81, 0x00] ++ (tagBody p d v ++ [e0, e1] ++ pl)) =
      .ok { dst := dst, src := src, ctag := some { pcp := p, dei := d, vid := v.setWidth 16 }, stag := none,
            etype := be16 e0 e1, payload := pl } := by
  have hs : slice (dst.bytes ++ src.bytes ++ [0x81, 0x00] ++ (tagBody p d v ++ [e0, e1] ++ pl)) 14 16 = tagBody p d v := rfl
  simp only [frameDecode, candidate_layout, hs, tagDecode_tagBody]
  rw [if_neg (by simp [HwAddr.bytes]), if_pos (show be16 0x81 0x00 = tpidCustomer by decide),
    if_neg (by simp [HwAddr.bytes, tagBody])]
  simp [HwAddr.bytes, tagBody, slice, addrAt, byteAt, pure, bind, Except.pure, Except.bind]

/-- A QinQ TPID with fewer than 22 bytes (R98). -/
theorem frameDecode_qinq_short (dst src : HwAddr) (rest : List Byte) (h : rest.length < 8) :
    frameDecode (dst.bytes ++ src.bytes ++ [0x88, 0xA8] ++ rest) = .error { code := .frameTooShort, ctx := .service } := by
  simp only [frameDecode, candidate_layout]
  rw [if_neg (by simp [HwAddr.bytes]), if_neg (show ¬ be16 0x88 0xA8 = tpidCustomer by decide),
    if_pos (show be16 0x88 0xA8 = tpidService by decide), if_pos (by simp [HwAddr.bytes]; omega)]

/-- frameDecode of a double-tagged layout, whatever its inner TPID (R78, R99). -/
theorem frameDecode_qinq (dst src : HwAddr) (sp cp : BitVec 3) (sd cd : Bool) (sv cv : BitVec 12)
    (z0 z1 e0 e1 : Byte) (pl : List Byte) :
    frameDecode (dst.bytes ++ src.bytes ++ [0x88, 0xA8] ++
        (tagBody sp sd sv ++ [z0, z1] ++ tagBody cp cd cv ++ [e0, e1] ++ pl)) =
      .ok { dst := dst, src := src, ctag := some { pcp := cp, dei := cd, vid := cv.setWidth 16 },
            stag := some { pcp := sp, dei := sd, vid := sv.setWidth 16 }, etype := be16 e0 e1, payload := pl } := by
  have hs : slice (dst.bytes ++ src.bytes ++ [0x88, 0xA8] ++
        (tagBody sp sd sv ++ [z0, z1] ++ tagBody cp cd cv ++ [e0, e1] ++ pl)) 14 16 = tagBody sp sd sv := rfl
  have hc : slice (dst.bytes ++ src.bytes ++ [0x88, 0xA8] ++
        (tagBody sp sd sv ++ [z0, z1] ++ tagBody cp cd cv ++ [e0, e1] ++ pl)) 18 20 = tagBody cp cd cv := rfl
  simp only [frameDecode, candidate_layout, hs, hc, tagDecode_tagBody]
  rw [if_neg (by simp [HwAddr.bytes]), if_neg (show ¬ be16 0x88 0xA8 = tpidCustomer by decide),
    if_pos (show be16 0x88 0xA8 = tpidService by decide), if_neg (by simp [HwAddr.bytes, tagBody])]
  simp [HwAddr.bytes, tagBody, slice, addrAt, byteAt, pure, bind, Except.pure, Except.bind]

/-- Every frameDecode is one of six cases. -/
theorem frameDecode_cases (b : List Byte) :
    (b.length < 14 ∧ frameDecode b = .error { code := .frameTooShort, ctx := .none }) ∨
    (∃ dst src rest, b = HwAddr.bytes dst ++ HwAddr.bytes src ++ [0x81, 0x00] ++ rest ∧ rest.length < 4 ∧
      frameDecode b = .error { code := .frameTooShort, ctx := .customer }) ∨
    (∃ dst src rest, b = HwAddr.bytes dst ++ HwAddr.bytes src ++ [0x88, 0xA8] ++ rest ∧ rest.length < 8 ∧
      frameDecode b = .error { code := .frameTooShort, ctx := .service }) ∨
    (∃ dst src c0 c1 p, b = HwAddr.bytes dst ++ HwAddr.bytes src ++ [c0, c1] ++ p ∧ be16 c0 c1 ≠ tpidCustomer ∧
      be16 c0 c1 ≠ tpidService ∧ frameDecode b =
        .ok { dst := dst, src := src, ctag := none, stag := none, etype := be16 c0 c1, payload := p }) ∨
    (∃ dst src p d v e0 e1 pl, b = HwAddr.bytes dst ++ HwAddr.bytes src ++ [0x81, 0x00] ++ (tagBody p d v ++ [e0, e1] ++ pl) ∧
      frameDecode b = .ok { dst := dst, src := src, ctag := some { pcp := p, dei := d, vid := v.setWidth 16 }, stag := none, etype := be16 e0 e1, payload := pl }) ∨
    (∃ dst src sp sd sv z0 z1 cp cd cv e0 e1 pl, b = HwAddr.bytes dst ++ HwAddr.bytes src ++ [0x88, 0xA8] ++
        (tagBody sp sd sv ++ [z0, z1] ++ tagBody cp cd cv ++ [e0, e1] ++ pl) ∧
      frameDecode b = .ok { dst := dst, src := src, ctag := some { pcp := cp, dei := cd, vid := cv.setWidth 16 }, stag := some { pcp := sp, dei := sd, vid := sv.setWidth 16 }, etype := be16 e0 e1, payload := pl }) := by
  by_cases h14 : b.length < 14
  · exact .inl ⟨h14, frameDecode_short b h14⟩
  obtain ⟨dst, src, c0, c1, rest, rfl⟩ := exists_layout b (by omega)
  by_cases hc : be16 c0 c1 = tpidCustomer
  · obtain ⟨rfl, rfl⟩ := (be16_inj c0 c1 0x81 0x00).1 (hc.trans (by decide))
    match rest with
    | [] => exact .inr (.inl ⟨dst, src, [], rfl, by simp, frameDecode_single_short _ _ _ (by simp)⟩)
    | [x] => exact .inr (.inl ⟨dst, src, [x], rfl, by simp, frameDecode_single_short _ _ _ (by simp)⟩)
    | [x, y] => exact .inr (.inl ⟨dst, src, [x, y], rfl, by simp, frameDecode_single_short _ _ _ (by simp)⟩)
    | [x, y, z] => exact .inr (.inl ⟨dst, src, [x, y, z], rfl, by simp, frameDecode_single_short _ _ _ (by simp)⟩)
    | t0 :: t1 :: e0 :: e1 :: pl =>
      obtain ⟨p, d, v, ht⟩ := exists_tagBody [t0, t1] rfl
      have hr : t0 :: t1 :: e0 :: e1 :: pl = tagBody p d v ++ [e0, e1] ++ pl := by rw [← ht]; rfl
      rw [hr]
      exact .inr (.inr (.inr (.inr (.inl ⟨dst, src, p, d, v, e0, e1, pl, rfl, frameDecode_single _ _ _ _ _ _ _ _⟩))))
  by_cases hs : be16 c0 c1 = tpidService
  · obtain ⟨rfl, rfl⟩ := (be16_inj c0 c1 0x88 0xA8).1 (hs.trans (by decide))
    by_cases h8 : rest.length < 8
    · exact .inr (.inr (.inl ⟨dst, src, rest, rfl, h8, frameDecode_qinq_short _ _ _ h8⟩))
    · match rest, h8 with
      | t0 :: t1 :: z0 :: z1 :: u0 :: u1 :: e0 :: e1 :: pl, _ =>
        obtain ⟨sp, sd, sv, ht⟩ := exists_tagBody [t0, t1] rfl
        obtain ⟨cp, cd, cv, hu⟩ := exists_tagBody [u0, u1] rfl
        have hr : t0 :: t1 :: z0 :: z1 :: u0 :: u1 :: e0 :: e1 :: pl =
            tagBody sp sd sv ++ [z0, z1] ++ tagBody cp cd cv ++ [e0, e1] ++ pl := by rw [← ht, ← hu]; rfl
        rw [hr]
        exact .inr (.inr (.inr (.inr (.inr ⟨dst, src, sp, sd, sv, z0, z1, cp, cd, cv, e0, e1, pl, rfl,
          frameDecode_qinq _ _ _ _ _ _ _ _ _ _ _ _ _⟩))))
      | [], h | [_], h | [_, _], h | [_, _, _], h | [_, _, _, _], h | [_, _, _, _, _], h | [_, _, _, _, _, _], h
      | [_, _, _, _, _, _, _], h => simp at h
  · exact .inr (.inr (.inr (.inl ⟨dst, src, c0, c1, rest, rfl, hc, hs, frameDecode_untagged _ _ _ _ _ hc hs⟩)))

/-- frameEncode of a service tag alone (R107). -/
theorem frameEncode_inconsistent (f : Frame) (t : VlanTag) (hs : f.stag = some t) (hc : f.ctag = none) :
    frameEncode f = .error { code := .inconsistentTagging, ctx := .none } := by
  simp [frameEncode, hs, hc]

/-- frameEncode of an untagged frame (R105). -/
theorem frameEncode_untagged (dst src : HwAddr) (e : Half) (p : List Byte) :
    frameEncode { dst := dst, src := src, ctag := none, stag := none, etype := e, payload := p } =
      .ok (dst.bytes ++ src.bytes ++ bytes16 e ++ p) := by
  simp [frameEncode, tagBytes, pure, bind, Except.pure, Except.bind]

/-- frameEncode of a frame with a customer tag only (R105, R106). -/
theorem frameEncode_single (dst src : HwAddr) (t : VlanTag) (e : Half) (p : List Byte) :
    frameEncode { dst := dst, src := src, ctag := some t, stag := none, etype := e, payload := p } =
      (tagEncode t .customer).map (fun body => dst.bytes ++ src.bytes ++ [0x81, 0x00] ++ (body ++ bytes16 e ++ p)) := by
  have h8 : bytes16 tpidCustomer = [0x81, 0x00] := by decide
  cases h : tagEncode t .customer <;> simp [frameEncode, tagBytes, h, h8, pure, bind, Except.pure, Except.bind, Except.map]

/-- frameEncode of a frame with both tags, the service tag encoded first (R105, R106). -/
theorem frameEncode_qinq (dst src : HwAddr) (t u : VlanTag) (e : Half) (p : List Byte) :
    frameEncode { dst := dst, src := src, ctag := some t, stag := some u, etype := e, payload := p } =
      (tagEncode u .service).bind (fun sb => (tagEncode t .customer).map (fun cb =>
        dst.bytes ++ src.bytes ++ [0x88, 0xA8] ++ (sb ++ [0x81, 0x00] ++ cb ++ bytes16 e ++ p))) := by
  have h8 : bytes16 tpidCustomer = [0x81, 0x00] := by decide
  have h9 : bytes16 tpidService = [0x88, 0xA8] := by decide
  cases h : tagEncode t .customer <;> cases h' : tagEncode u .service <;>
    simp [frameEncode, tagBytes, h, h', h8, h9, pure, bind, Except.pure, Except.bind, Except.map]

/-- A frame has one of the three shapes exactly when a service tag does not appear alone (R9, R10). -/
theorem tagging_isSome (f : Frame) : f.tagging.isSome = true ↔ f.consistentlyTagged := by
  obtain ⟨_, _, c, s, _, _⟩ := f
  cases c <;> cases s <;> simp [Frame.tagging, Frame.consistentlyTagged]

end Sys2Proof.Machine
end

