-- ==== Sys2Proof/Laws/Exec.lean ====
section
/-! SUPPORT. Everything a command can answer, said once: which bytes it examines, and the ways it completes. -/

namespace Sys2Proof.Machine

/-- A written byte of a held sequence. -/
theorem isSome_of_holds (m : Memory) (b : List Byte) (skip : List Nat) (h : Memory.holds m b skip) (i : Nat)
    (hi : i < b.length) (hs : i ∉ skip) : (Memory.read m i).isSome = true := by
  rw [h i hi hs, List.getElem?_eq_getElem hi]; rfl

/-- The value at offset 12 of WBUF's first `n` bytes, where its two bytes have been written (R79). -/
theorem candidate_bytes (m : Memory) (x y : Byte) (n : Nat) (hn : 14 ≤ n) (hx : Memory.read m 12 = some x)
    (hy : Memory.read m 13 = some y) : candidate (Memory.bytes m 0 n) = be16 x y := by
  simp only [candidate, byteAt, List.getD_eq_getElem?_getD, bytes_getElem?_of_read m n 12 x (by omega) hx,
    bytes_getElem?_of_read m n 13 y (by omega) hy, Option.getD_some]

/-- FRAME_DECODE examines only bytes below WLEN (R47). -/
theorem frameBytesExamined_lt (b : List Byte) (i : Nat) (h : i ∈ frameBytesExamined b) : i < b.length := by
  simp only [frameBytesExamined] at h
  split at h
  · simp at h
  · split at h
    · simp at h; omega
    · split at h
      · split at h
        · simp at h; omega
        · simp [List.mem_range'] at h; omega
      · simpa using h

/-- TAG_DECODE examines only bytes below WLEN (R47). -/
theorem tagBytesExamined_lt (n i : Nat) (h : i ∈ tagBytesExamined n) : i < n := by
  unfold tagBytesExamined at h
  split at h
  · simp at h; omega
  · simp at h

/-- An error the command `i`, or an illegal word, can raise (R128, R129). -/
def CodecError.raisedBy (e : CodecError) (i : Option Instr) : Prop := ∃ w, (i, e.code, e.ctx, w) ∈ errorReports

/-- A context other than NONE comes only with the two codes that can have one (R129). -/
theorem raisedBy_ctx (e : CodecError) (i : Option Instr) (h : e.raisedBy i) (hx : e.ctx ≠ .none) :
    e.code = .frameTooShort ∨ e.code = .invalidVlanId := by
  obtain ⟨c, x⟩ := e
  obtain ⟨w, h⟩ := h
  simp only [errorReports, List.mem_cons, List.mem_nil_iff, or_false, Prod.mk.injEq] at h
  rcases h with h | h | h | h | h | h | h | h | h | h | h | h <;> obtain ⟨-, rfl, rfl, -⟩ := h <;> simp at hx ⊢

/-- What STATUS reads after an error completion (R130). -/
theorem errorReports_word (i : Option Instr) (c : ErrCode) (x : ErrCtx) (w : Word) (h : (i, c, x, w) ∈ errorReports) :
    ∀ v, Status.word { busy := false, done := true, err := true, errCode := some c, errCtx := x, viol := v } =
      w ||| (if v then 0x00010000#32 else 0#32) := by
  simp only [errorReports, List.mem_cons, List.mem_nil_iff, or_false, Prod.mk.injEq] at h
  rcases h with h | h | h | h | h | h | h | h | h | h | h | h <;> obtain ⟨-, rfl, rfl, rfl⟩ := h <;> decide

/-- tagEncode: a VLAN ID above 4095 is refused, any other tag is its body. -/
theorem tagEncode_cases (t : VlanTag) (ctx : ErrCtx) :
    (4095 < t.vid.toNat ∧ tagEncode t ctx = .error { code := .invalidVlanId, ctx := ctx }) ∨
    (t.vid.toNat ≤ 4095 ∧ ∃ p d v, t = { pcp := p, dei := d, vid := BitVec.setWidth 16 v } ∧
      tagEncode t ctx = .ok (tagBody p d v)) := by
  by_cases h : 4095 < t.vid.toNat
  · exact .inl ⟨h, tagEncode_invalid _ _ h⟩
  · obtain ⟨p, d, v⟩ := t
    obtain ⟨w, rfl⟩ := exists_vid12 v (by simpa using h)
    exact .inr ⟨by simpa using h, p, d, w, rfl, tagEncode_vid12 ..⟩

/-- The length the registers' frame encodes to (R104, R135). -/
theorem regFrameLength_eq (s : State) : regFrameLength s =
    14 + (if s.stag.present then 4 else 0) + (if s.ctag.present then 4 else 0) + s.plen.toNat := by
  simp only [regFrameLength, tagLength, regTag]
  by_cases h1 : s.stag.present = true <;> by_cases h2 : s.ctag.present = true <;> simp [h1, h2]

/-- The checks pass exactly when the registers hold an encodable frame that fits. -/
theorem frameEncodeChecks_ok (s : State) : frameEncodeChecks s = .ok () ↔
    (s.stag.present = true → s.ctag.present = true ∧ s.stag.vid.toNat ≤ 4095) ∧
    (s.ctag.present = true → s.ctag.vid.toNat ≤ 4095) ∧ regFrameLength s ≤ s.cap.n := by
  unfold frameEncodeChecks
  split
  · rename_i h; simp only [reduceCtorEq, false_iff]; exact fun h' => h.2 (h'.1 h.1).1
  split
  · rename_i h; simp only [reduceCtorEq, false_iff, vidMax] at h ⊢; intro h'; have := (h'.1 h.1).2; omega
  split
  · rename_i h; simp only [reduceCtorEq, false_iff, vidMax] at h ⊢; intro h'; have := h'.2.1 h.1; omega
  split
  · simp only [reduceCtorEq, false_iff]; omega
  · rename_i h1 h2 h3 h4
    simp only [not_and, not_lt, Bool.not_eq_true, Bool.not_eq_false] at h1 h2 h3
    simp only [true_iff]
    exact ⟨fun ha => ⟨h1 ha, h2 ha⟩, h3, by omega⟩

/-- Once the checks have passed, frameEncode of the registers' frame succeeds, with the length the checks computed. -/
theorem frameEncode_of_checks (s : State) (h : frameEncodeChecks s = .ok ()) :
    ∃ out, frameEncode (regFrame s) = .ok out ∧ out.length = regFrameLength s ∧ out.length ≤ s.cap.n := by
  have hl := regFrameLength_eq s
  obtain ⟨h1, h2, h3⟩ := (frameEncodeChecks_ok s).1 h
  by_cases hc : s.ctag.present = true
  · rcases tagEncode_cases s.ctag.tag .customer with ⟨hv, -⟩ | ⟨-, p, d, v, -, hct⟩
    · have := h2 hc; simp only [TagReg.tag] at hv; omega
    by_cases hs : s.stag.present = true
    · rcases tagEncode_cases s.stag.tag .service with ⟨hv, -⟩ | ⟨-, p', d', v', -, hst⟩
      · have := (h1 hs).2; simp only [TagReg.tag] at hv; omega
      have he : frameEncode (regFrame s) = .ok ((regFrame s).dst.bytes ++ (regFrame s).src.bytes ++ [0x88, 0xA8] ++
          (tagBody p' d' v' ++ [0x81, 0x00] ++ tagBody p d v ++ bytes16 s.etype ++ (regFrame s).payload)) := by
        simp only [regFrame, regTag, hc, hs, if_true]; rw [frameEncode_qinq, hst, hct]; rfl
      refine ⟨_, he, ?_, ?_⟩ <;>
        simp [regFrame, HwAddr.bytes, tagBody, bytes16, hl, hc, hs] at h3 ⊢ <;> omega
    · have he : frameEncode (regFrame s) = .ok ((regFrame s).dst.bytes ++ (regFrame s).src.bytes ++ [0x81, 0x00] ++
          (tagBody p d v ++ bytes16 s.etype ++ (regFrame s).payload)) := by
        simp only [regFrame, regTag, hc, hs, if_true, Bool.false_eq_true, if_false]; rw [frameEncode_single, hct]; rfl
      refine ⟨_, he, ?_, ?_⟩ <;>
        simp [regFrame, HwAddr.bytes, tagBody, bytes16, hl, hc, hs] at h3 ⊢ <;> omega
  · have hs : ¬ s.stag.present = true := fun hs => hc (h1 hs).1
    have he : frameEncode (regFrame s) = .ok ((regFrame s).dst.bytes ++ (regFrame s).src.bytes ++ bytes16 s.etype ++
        (regFrame s).payload) := by
      simp only [regFrame, regTag, hc, hs, Bool.false_eq_true, if_false]; exact frameEncode_untagged ..
    refine ⟨_, he, ?_, ?_⟩ <;>
      simp [regFrame, HwAddr.bytes, bytes16, hl, hc, hs] at h3 ⊢ <;> omega

/-- A decoded frame's payload is the sequence less its header. -/
theorem frameDecode_payload_length (b : List Byte) (f : Frame) (h : frameDecode b = .ok f) :
    14 + f.payload.length ≤ b.length := by
  rcases frameDecode_cases b with ⟨-, hd⟩ | ⟨_, _, _, -, -, hd⟩ | ⟨_, _, _, -, -, hd⟩ | ⟨dst, src, c0, c1, p, rfl, -, -, hd⟩ |
    ⟨dst, src, p, d, v, e0, e1, pl, rfl, hd⟩ | ⟨dst, src, sp, sd, sv, z0, z1, cp, cd, cv, e0, e1, pl, rfl, hd⟩ <;>
  rw [hd] at h <;> simp only [reduceCtorEq, Except.ok.injEq] at h <;> subst h <;>
  simp [HwAddr.bytes, tagBody] <;> omega

/-- What frameDecode raises, a command may raise (R103, R129). -/
theorem frameDecode_error_raisedBy (b : List Byte) (e : CodecError) (h : frameDecode b = .error e) :
    e.raisedBy (some .frameDecode) := by
  rcases frameDecode_cases b with ⟨-, hd⟩ | ⟨_, _, _, -, -, hd⟩ | ⟨_, _, _, -, -, hd⟩ | ⟨_, _, _, _, _, -, -, -, hd⟩ |
    ⟨_, _, _, _, _, _, _, _, -, hd⟩ | ⟨_, _, _, _, _, _, _, _, _, _, _, _, _, -, hd⟩ <;>
  rw [hd] at h <;> simp only [reduceCtorEq, Except.error.injEq] at h <;> subst h <;> simp [CodecError.raisedBy, errorReports]

/-- How a command that answers a next state completed: by an error it may raise, or with the writes of its rule. -/
inductive Completed (i : Instr) (s : State) : State → Prop where
  | error (e : CodecError) (h : e.raisedBy (some i)) : Completed i s (raiseError s e)
  | tagDecode (t : VlanTag) (hi : i = .tagDecode) (hw : s.wlen.toNat = 2)
      (hd : Machine.tagDecode (Memory.bytes s.wbuf 0 2) .none = .ok t) :
      Completed i s (succeed { s with ctag := tagReg (some t) })
  | tagEncode (bs : List Byte) (hi : i = .tagEncode) (hl : bs.length = 2)
      (he : Machine.tagEncode s.ctag.tag .none = .ok bs) :
      Completed i s (succeed { s with wbuf := Memory.writeBytes s.wbuf 0 bs, wlen := 2 })
  | frameDecode (f : Frame) (hi : i = .frameDecode) (hc : s.wlen.toNat ≤ s.cap.n)
      (hd : Machine.frameDecode (Memory.bytes s.wbuf 0 s.wlen.toNat) = .ok f)
      (hl : 14 + f.payload.length ≤ s.wlen.toNat) : Completed i s (succeed (writeFrame s f))
  | frameEncode (out : List Byte) (hi : i = .frameEncode) (hk : frameEncodeChecks s = .ok ())
      (he : Machine.frameEncode (regFrame s) = .ok out) (hl : out.length = regFrameLength s) (hc : out.length ≤ s.cap.n) :
      Completed i s (succeed { s with wbuf := Memory.writeBytes s.wbuf 0 out, wlen := BitVec.ofNat 16 out.length })

/-- Which bytes a command examines (log entry 4): the buffer and the indices. -/
def examined (i : Instr) (s : State) : Buf × List Nat :=
  match i with
  | .tagDecode => (.wbuf, if s.cap.n < s.wlen.toNat then [] else tagBytesExamined s.wlen.toNat)
  | .tagEncode => (.wbuf, [])
  | .frameDecode => (.wbuf, if s.cap.n < s.wlen.toNat then [] else
      frameBytesExamined (Memory.bytes s.wbuf 0 s.wlen.toNat))
  | .frameEncode => (.pbuf, match frameEncodeChecks s with | .error _ => [] | .ok _ => List.range s.plen.toNat)

/-- Everything a command can answer: a fault at an examined byte nothing has written, or, when there is none, a completion. -/
theorem exec_cases (i : Instr) (s : State) :
    (∃ k, k ∈ (examined i s).2 ∧ Memory.read (s.buf (examined i s).1) k = none ∧
        exec i s = .fault (.undefinedByte (examined i s).1 k)) ∨
      ((∀ k ∈ (examined i s).2, (Memory.read (s.buf (examined i s).1) k).isSome = true) ∧
        ∃ t, exec i s = .next t ∧ Completed i s t) := by
  cases i with
  | tagDecode =>
    simp only [exec, execTagDecode, examined]
    by_cases h : s.cap.n < s.wlen.toNat
    · simp only [if_pos h]; exact .inr ⟨by simp, _, rfl, .error _ (by simp [CodecError.raisedBy, errorReports])⟩
    · simp only [if_neg h]
      rcases examine_cases s .wbuf (tagBytesExamined s.wlen.toNat) (do
        let t ← tagDecode (Memory.bytes s.wbuf 0 s.wlen.toNat) .none
        return { s with ctag := tagReg (some t) }) with ⟨k, hk, hr, -, he⟩ | ⟨hr, he⟩
      · exact .inl ⟨k, hk, hr, he⟩
      · refine .inr ⟨hr, _, he, ?_⟩
        by_cases h2 : s.wlen.toNat = 2
        · obtain ⟨p, d, v, hb⟩ := exists_tagBody (Memory.bytes s.wbuf 0 2) (by simp)
          simp only [h2, hb, tagDecode_tagBody]
          exact .tagDecode _ rfl h2 (by rw [hb, tagDecode_tagBody])
        · rw [tagDecode_of_length_ne _ _ (by simpa using h2)]
          exact .error _ (by simp [CodecError.raisedBy, errorReports])
  | tagEncode =>
    simp only [exec, execTagEncode, examined]
    refine .inr ⟨by simp, _, rfl, ?_⟩
    rcases tagEncode_cases s.ctag.tag .none with ⟨-, he⟩ | ⟨-, p, d, v, -, he⟩
    · rw [he]; exact .error _ (by simp [CodecError.raisedBy, errorReports])
    · rw [he]; exact .tagEncode _ rfl rfl he
  | frameDecode =>
    simp only [exec, execFrameDecode, examined]
    by_cases h : s.cap.n < s.wlen.toNat
    · simp only [if_pos h]; exact .inr ⟨by simp, _, rfl, .error _ (by simp [CodecError.raisedBy, errorReports])⟩
    · simp only [if_neg h]
      rcases examine_cases s .wbuf (frameBytesExamined (Memory.bytes s.wbuf 0 s.wlen.toNat)) (do
        let f ← frameDecode (Memory.bytes s.wbuf 0 s.wlen.toNat)
        return writeFrame s f) with ⟨k, hk, hr, -, he⟩ | ⟨hr, he⟩
      · exact .inl ⟨k, hk, hr, he⟩
      · refine .inr ⟨hr, _, he, ?_⟩
        cases hd : frameDecode (Memory.bytes s.wbuf 0 s.wlen.toNat) with
        | error e => exact .error _ (frameDecode_error_raisedBy _ _ hd)
        | ok f => exact .frameDecode f rfl (by omega) hd (by simpa using frameDecode_payload_length _ _ hd)
  | frameEncode =>
    simp only [exec, execFrameEncode, examined]
    cases hk : frameEncodeChecks s with
    | error e =>
      refine .inr ⟨by simp, _, rfl, .error _ ?_⟩
      unfold frameEncodeChecks at hk
      split at hk
      · cases hk; simp [CodecError.raisedBy, errorReports]
      split at hk
      · cases hk; simp [CodecError.raisedBy, errorReports]
      split at hk
      · cases hk; simp [CodecError.raisedBy, errorReports]
      split at hk <;> cases hk; simp [CodecError.raisedBy, errorReports]
    | ok u =>
      obtain ⟨out, ho, hl, hc⟩ := frameEncode_of_checks s hk
      simp only [ho]
      rcases examine_cases s .pbuf (List.range s.plen.toNat) (do
        let out ← Except.ok (ε := CodecError) out
        return { s with wbuf := Memory.writeBytes s.wbuf 0 out, wlen := BitVec.ofNat 16 (regFrameLength s) })
        with ⟨k, hk, hr, -, he⟩ | ⟨hr, he⟩
      · exact .inl ⟨k, hk, hr, he⟩
      · refine .inr ⟨hr, _, he, ?_⟩
        rw [← hl]; exact .frameEncode out rfl hk ho hl hc

/-- A command's next state is one of the completions. -/
theorem completed_of_exec (i : Instr) (s t : State) (h : exec i s = .next t) : Completed i s t := by
  rcases exec_cases i s with ⟨_, _, _, he⟩ | ⟨-, t', he, hc⟩
  · rw [h] at he; cases he
  · rw [h] at he; cases he; exact hc

/-- A command that examines a byte nothing has written faults. -/
theorem exec_fault_of_unwritten (i : Instr) (s : State) (k : Nat) (hk : k ∈ (examined i s).2)
    (hr : Memory.read (s.buf (examined i s).1) k = none) :
    ∃ j, exec i s = .fault (.undefinedByte (examined i s).1 j) := by
  rcases exec_cases i s with ⟨j, -, -, he⟩ | ⟨h, -⟩
  · exact ⟨j, he⟩
  · have h' := h k hk
    rw [hr] at h'
    cases h'

end Sys2Proof.Machine
end

