-- ==== Sys2Proof/Laws/PerInstr.lean ====
section
/-! SUPPORT. Statements made of every command, one lemma per constructor (30_encoding.md R68, R69). -/

namespace Sys2Proof.Laws.CommandWord

/-- R68, R69: a command is well formed, and its word has bits 31:4 zero and its number, 1 to 4, in OP. -/
def Statement (i : Instr) : Prop :=
  i.wf = true ∧ (encode i).extractLsb' 4 28 = 0#28 ∧ (encode i).extractLsb' 0 4 = opField i ∧
    1 ≤ (opField i).toNat ∧ (opField i).toNat ≤ 4

theorem tagDecode : Statement .tagDecode := by simp only [Statement]; decide
theorem tagEncode : Statement .tagEncode := by simp only [Statement]; decide
theorem frameDecode : Statement .frameDecode := by simp only [Statement]; decide
theorem frameEncode : Statement .frameEncode := by simp only [Statement]; decide

end Sys2Proof.Laws.CommandWord
end

