-- ==== Sys2Proof/Laws/Step.lean ====
section
/-! SUPPORT. Everything a bus operation, an engine step and a step can do, said once. -/

namespace Sys2Proof.Machine

/-- The offsets of the register map are the multiples of 4 up to 0x3C (R17, R48). -/
theorem regAt_isSome (off : Nat) : (regAt off).isSome = offsetOk off := by
  by_cases h : off ≤ 0x3C
  · interval_cases off <;> rfl
  · have h1 : offsetOk off = false := by simp [offsetOk]; omega
    rw [h1]; unfold regAt; split <;> first | omega | rfl

/-- The one offset of a register; the unmapped words have several, and 0 stands for them. -/
def Reg.offset (r : Reg) : Nat :=
  match r with
  | .cmd => 0x00
  | .status => 0x04
  | .irqEn => 0x08
  | .caps => 0x0C
  | .wlen => 0x10
  | .plen => 0x14
  | .dstHi => 0x18
  | .dstLo => 0x1C
  | .srcHi => 0x20
  | .srcLo => 0x24
  | .etype => 0x28
  | .ctag => 0x2C
  | .stag => 0x30
  | .unmapped => 0x00

theorem regAt_offset (off : Nat) (r : Reg) (h : regAt off = some r) (hr : r ≠ .unmapped) : off = r.offset := by
  unfold regAt at h
  split at h <;> cases h <;> first | rfl | exact absurd rfl hr

/-- Every register but the unmapped words stands at one offset (R17). -/
theorem regAt_inj (a b : Nat) (r : Reg) (ha : regAt a = some r) (hb : regAt b = some r) (h : r ≠ .unmapped) : a = b :=
  (regAt_offset a r ha h).trans (regAt_offset b r hb h).symm

theorem busOp_regRead (off : Nat) (r : Reg) (s : State) (h : regAt off = some r) :
    busOp (.regRead off) s = .next (readReg r s) := by simp only [busOp, h]

theorem busOp_regWrite (off : Nat) (v : Word) (r : Reg) (s : State) (h : regAt off = some r) :
    busOp (.regWrite off v) s = .next (writeReg r v s) := by simp only [busOp, h]

/-- With BUSY = 0 a register read returns the register's value (R51). -/
theorem readReg_idle (r : Reg) (s : State) (h : s.status.busy = false) :
    readReg r s = { s with reply := .word (r.value s) } := by simp [readReg, h]

/-- With BUSY = 0 a register write is accepted (R51). -/
theorem writeReg_idle (r : Reg) (v : Word) (s : State) (h : s.status.busy = false) :
    writeReg r v s = { r.store v s with reply := .none } := by simp [writeReg, h]

/-- With BUSY = 0 a byte write below BUF_CAP is accepted (R51). -/
theorem busOp_bufWrite_idle (s : State) (b : Buf) (i : Nat) (x : Byte) (hb : s.status.busy = false) (hi : i < s.cap.n) :
    busOp (.bufWrite b i x) s = .next { s.setBuf b (Memory.write (s.buf b) i x) with reply := .none } := by
  have h1 : i ≤ 65535 := by have := s.cap.hi; omega
  have h2 : ¬ s.cap.n ≤ i := by omega
  simp [busOp, indexOk, h1, writeBuf, hb, h2]

/-- With BUSY = 0 a byte read below BUF_CAP returns the byte, where one has been written (R51). -/
theorem busOp_bufRead_idle (s : State) (b : Buf) (i : Nat) (x : Byte) (hb : s.status.busy = false) (hi : i < s.cap.n)
    (hx : Memory.read (s.buf b) i = some x) : busOp (.bufRead b i) s = .next { s with reply := .byte x } := by
  have h1 : i ≤ 65535 := by have := s.cap.hi; omega
  have h2 : ¬ s.cap.n ≤ i := by omega
  simp [busOp, indexOk, h1, readBuf, hb, h2, hx]

/-- After reset every register but CAPS reads 0 (R149). -/
theorem value_resetWith (cap : BufCap) (r : Reg) :
    r.value (State.resetWith cap) = if r = .caps then capsWord cap else 0#32 := by
  cases r <;> simp [Reg.value, State.resetWith, TagReg.zero] <;> decide

/-- A write to an operand register or IRQ_EN changes what no other register reads as. -/
theorem value_store_of_ne (s : State) (v : Word) (r r' : Reg) (h : r' ≠ r) (hr : r.isOperand = true ∨ r = .irqEn) :
    r'.value (r.store v s) = r'.value s := by
  cases r
  case cmd | status | caps | unmapped => simp [Reg.isOperand] at hr
  all_goals cases r'
  all_goals first | exact absurd rfl h | rfl

/-- What an answered bus operation did: a read changed only the reply and the count of draws; a dropped write only VIOL; a
register write what its rule says; a buffer write one byte below BUF_CAP. -/
inductive BusStep (s : State) : BusOp → State → Prop where
  | read (o : BusOp) (r : Reply) (d : Nat) (ho : (∃ off, o = .regRead off) ∨ ∃ b i, o = .bufRead b i) :
      BusStep s o { s with reply := r, draws := d }
  | dropReg (off : Nat) (v : Word) (r : Reg) (hr : regAt off = some r) (hb : s.status.busy = true)
      (ho : r.isOperand = true ∨ r = .cmd) : BusStep s (.regWrite off v) (dropWrite s)
  | dropBuf (b : Buf) (i : Nat) (x : Byte) (h : s.status.busy = true ∨ s.cap.n ≤ i) :
      BusStep s (.bufWrite b i x) (dropWrite s)
  | store (off : Nat) (v : Word) (r : Reg) (hr : regAt off = some r)
      (hb : s.status.busy = true → r.isOperand = false ∧ r ≠ .cmd) :
      BusStep s (.regWrite off v) { r.store v s with reply := .none }
  | write (b : Buf) (i : Nat) (x : Byte) (hb : s.status.busy = false) (hi : i < s.cap.n) :
      BusStep s (.bufWrite b i x) { s.setBuf b (Memory.write (s.buf b) i x) with reply := .none }

/-- Every answered bus operation is one of these. -/
theorem busStep_of_busOp (o : BusOp) (s t : State) (h : busOp o s = .next t) : BusStep s o t := by
  cases o with
  | regRead off =>
    simp only [busOp] at h
    split at h <;> cases h
    rename_i r _
    unfold readReg
    split <;> exact .read _ _ _ (.inl ⟨_, rfl⟩)
  | regWrite off v =>
    simp only [busOp] at h
    split at h <;> cases h
    rename_i r hr
    unfold writeReg
    split
    · rename_i hb; exact .dropReg off v r hr hb.1 hb.2
    · rename_i hb; refine .store off v r hr fun hbusy => ?_
      simp only [hbusy, true_and, not_or, Bool.not_eq_true] at hb; exact hb
  | bufRead b i =>
    simp only [busOp] at h
    split at h <;> cases h
    unfold readBuf
    split
    · exact .read _ _ _ (.inr ⟨_, _, rfl⟩)
    split
    · exact .read _ _ _ (.inr ⟨_, _, rfl⟩)
    split <;> exact .read _ _ _ (.inr ⟨_, _, rfl⟩)
  | bufWrite b i x =>
    simp only [busOp] at h
    split at h <;> cases h
    unfold writeBuf
    split
    · rename_i hb; exact .dropBuf b i x hb
    · rename_i hb; simp only [not_or, Bool.not_eq_true, not_le] at hb; exact .write b i x hb.1 hb.2
  | otherWidth sp bits => cases h

/-- A read of STATUS returns its word, whether or not a command is in progress (R58 (c)). -/
theorem readReg_status (s : State) : readReg .status s = { s with reply := .word s.status.word } := by
  simp [readReg, Reg.isOperand, Reg.value]

/-- What an answered host step did: nothing, one poll of STATUS, or a bus operation. -/
inductive HostDid (s : State) : State → Prop where
  | idle (h : s.host = []) : HostDid s s
  | poll (rest : List HostStmt) (h : s.host = .wait :: rest) (rest' : List HostStmt) :
      HostDid s { s with host := rest', reply := .word s.status.word }
  | op (o : BusOp) (rest : List HostStmt) (h : s.host = .op o :: rest) (t : State)
      (ht : BusStep { s with host := rest } o t) : HostDid s t

/-- Every answered host step is one of these. -/
theorem hostDid_of_hostStep (s t : State) (h : hostStep s = .next t) : HostDid s t := by
  unfold hostStep at h
  split at h
  · cases h; exact .idle ‹_›
  · exact .op _ _ ‹_› t (busStep_of_busOp _ _ _ h)
  · rename_i rest hh
    split at h <;> cases h <;> rw [readReg_status]
    · exact .poll rest hh s.host
    · exact .poll rest hh rest

/-- What an answered engine step did when BUSY = 1: it completed, or raised ILLEGAL_COMMAND (R120, R121). -/
theorem engineCommand_cases (s t : State) (h : engineCommand s = .next t) :
    (∃ i, decodeCmd s.pending = some i ∧ Completed i s t) ∨
      (decodeCmd s.pending = none ∧ t = raiseError s { code := .illegalCommand, ctx := .none }) := by
  unfold engineCommand at h
  split at h
  · exact .inl ⟨_, ‹_›, completed_of_exec _ _ _ h⟩
  · cases h; exact .inr ⟨‹_›, rfl⟩

/-- What an answered step did: a host step, an engine step of a command in progress, an engine's turn that passed, or a
reset; in each case from the state whose turn has been taken off the list. -/
theorem step_cases (s t : State) (h : step s = .next t) :
    ∃ ts, (s.turns = [] ∧ ts = [] ∨ ∃ a, s.turns = a :: ts) ∧
      ((HostDid { s with turns := ts } t ∧ (s.turns = .host :: ts ∨ s.turns = [] ∧ s.status.busy = false)) ∨
       (s.status.busy = true ∧ engineCommand { s with turns := ts } = .next t ∧
          (s.turns = .engine :: ts ∨ s.turns = [])) ∨
       (s.status.busy = false ∧ s.turns = .engine :: ts ∧ t = { s with turns := ts }) ∨
       (s.turns = .reset :: ts ∧ t = resetStep { s with turns := ts })) := by
  unfold step takeTurn at h
  split at h
  · rename_i ts hts
    exact ⟨ts, .inr ⟨_, hts⟩, .inl ⟨hostDid_of_hostStep _ _ h, .inl hts⟩⟩
  · rename_i ts hts
    unfold engineStep at h
    split at h
    · exact ⟨ts, .inr ⟨_, hts⟩, .inr (.inl ⟨‹_›, h, .inl hts⟩)⟩
    · rename_i hb; cases h
      exact ⟨ts, .inr ⟨_, hts⟩, .inr (.inr (.inl ⟨by simpa using hb, hts, rfl⟩))⟩
  · rename_i ts hts; cases h
    exact ⟨ts, .inr ⟨_, hts⟩, .inr (.inr (.inr ⟨hts, rfl⟩))⟩
  · rename_i hts
    have hs : { s with turns := [] } = s := by cases s; simp_all
    refine ⟨[], .inl ⟨hts, rfl⟩, ?_⟩
    rw [hs]
    split at h
    · rename_i hb; simp only [engineStep, hb, if_true] at h; exact .inr (.inl ⟨hb, h, .inr hts⟩)
    · rename_i hb; exact .inl ⟨hostDid_of_hostStep _ _ h, .inr ⟨hts, by simpa using hb⟩⟩

/-- A run of one step more, when the first step answers. -/
theorem run_succ (k : Nat) (s t : State) (h : step s = .next t) :
    Host.Core.run core (k + 1) s = Host.Core.run core k t := by
  have h' : core.step s = .next t := h
  simp only [Host.Core.run, h']

end Sys2Proof.Machine
end

