-- ==== Sys2Proof/Tests/Slice0.lean ====
section
/-! SUPPORT. The model's own tests (expected results from 30_encoding.md and 95_test_vectors.md, BUF_CAP = 64), and for every
statement with hypotheses a state that meets them. -/

namespace Sys2Proof.Tests
open Sys2Proof Sys2Proof.Machine

/-! ### WellFormed: an ill-formed term for each check -/

theorem test_commands_wf : (Instr.tagDecode.wf && Instr.tagEncode.wf && Instr.frameDecode.wf && Instr.frameEncode.wf) = true := by
  decide
theorem test_misaligned_offset_refused : (BusOp.regRead 0x02).wf = false ∧ (BusOp.regWrite 0x3D 0).wf = false := by decide
theorem test_offset_past_map_refused : (BusOp.regRead 0x40).wf = false ∧ (BusOp.regRead 0x3C).wf = true := by decide
theorem test_index_past_space_refused : (BusOp.bufRead .wbuf 65536).wf = false ∧ (BusOp.bufWrite .pbuf 65536 0).wf = false ∧
    (BusOp.bufRead .wbuf 65535).wf = true := by decide
theorem test_other_width_refused : (BusOp.otherWidth .reg 16).wf = false ∧ (HostStmt.op (.otherWidth (.buf .pbuf) 32)).wf = false := by
  decide

/-! ### Decode: the words of 30_encoding.md R69, bit by bit, and illegal ones (R70, K2) -/

theorem test_decode_tag_decode : decodeCmd 0b00000000000000000000000000000001#32 = some .tagDecode := by decide
theorem test_decode_tag_encode : decodeCmd 0b00000000000000000000000000000010#32 = some .tagEncode := by decide
theorem test_decode_frame_decode : decodeCmd 0b00000000000000000000000000000011#32 = some .frameDecode := by decide
theorem test_decode_frame_encode : decodeCmd 0b00000000000000000000000000000100#32 = some .frameEncode := by decide
theorem test_decode_illegal : decodeCmd 0x00000000#32 = none ∧ decodeCmd 0x00000005#32 = none ∧
    decodeCmd 0x00000103#32 = none ∧ decodeCmd 0x80000001#32 = none ∧ decodeCmd 0xFFFFFFFF#32 = none := by decide
theorem test_decode_table_word : decodeTableWord 32 3 = some .frameDecode ∧ decodeTableWord 32 0 = none := by decide

/-! ### One command each, in the engine step -/

/-- The state of a next outcome. -/
def next? (o : Host.Outcome State Fault Refusal) : Option State :=
  match o with
  | .next t => some t
  | .fault _ => none
  | .refused _ => none

/-- Just after reset, with bytes in WBUF and their number in WLEN, and a command in progress. -/
def wire (b : List Byte) : State :=
  issue { State.reset with wbuf := Memory.writeBytes [] 0 b, wlen := BitVec.ofNat 16 b.length } 0

/-- Just after reset, with the registers of 95_test_vectors.md's D12, and a command in progress. -/
def regs (stag ctag : Word) (etype : Half) (payload : List Byte) : State :=
  issue { State.reset with
    dstHi := 0x0102, dstLo := 0x03040506, srcHi := 0x0A0B, srcLo := 0x0C0D0E0F, etype := etype,
    stag := TagReg.ofWord stag, ctag := TagReg.ofWord ctag, plen := BitVec.ofNat 16 payload.length,
    pbuf := Memory.writeBytes [] 0 payload } 0

/-- A12 of 95_test_vectors.md. -/
def a12 : List Byte := [1, 1, 1, 1, 1, 1, 2, 2, 2, 2, 2, 2]
/-- D12 of 95_test_vectors.md. -/
def d12 : List Byte := [1, 2, 3, 4, 5, 6, 0x0A, 0x0B, 0x0C, 0x0D, 0x0E, 0x0F]

/-- W1. -/
theorem test_tag_decode_w1 : (next? (exec .tagDecode (wire [0x70, 0x0C]))).map (fun t => (t.ctag.word, t.status.word)) =
    some (0x800B000C#32, 0x00000002#32) := by decide
/-- T9: exactly 2 bytes are required. -/
theorem test_tag_decode_t9 : (next? (exec .tagDecode (wire [0x70, 0x0C, 0x00]))).map (fun t => (t.ctag.word, t.status.word)) =
    some (0x00000000#32, 0x00000026#32) := by decide

/-- E2: PRESENT is ignored, and bytes past the second stay. -/
theorem test_tag_encode_e2 :
    (next? (exec .tagEncode { wire [0x11, 0x22, 0x33, 0x44] with ctag := TagReg.ofWord 0x000B000C })).map
      (fun t => (t.wbuf, t.wlen, t.status.word)) =
    some ([(0, 0x70), (1, 0x0C), (2, 0x33), (3, 0x44)], 2, 0x00000002#32) := by decide
/-- E5: VID 4096. -/
theorem test_tag_encode_e5 :
    (next? (exec .tagEncode { wire [0x11, 0x22] with ctag := TagReg.ofWord 0x00001000 })).map
      (fun t => (t.wbuf, t.wlen, t.status.word)) =
    some ([(0, 0x11), (1, 0x22)], 2, 0x00000036#32) := by decide

/-- F5 with W2's customer body: the inner TPID is not examined. -/
theorem test_frame_decode_f5 :
    (next? (exec .frameDecode (wire (a12 ++ [0x88, 0xA8, 0x70, 0x0C, 0x12, 0x34, 0xA0, 0xCC, 0x08, 0x00, 0x50])))).map
      (fun t => ([t.stag.word, t.ctag.word, t.dstLo], [t.dstHi, t.srcHi, t.etype, t.plen], t.pbuf)) =
    some ([0x800B000C, 0x800500CC, 0x01010101], [0x0101, 0x0202, 0x0800, 1], [(0, 0x50)]) := by decide
/-- F12: the TPID alone selects the required depth. -/
theorem test_frame_decode_f12 :
    (next? (exec .frameDecode (wire (a12 ++ [0x81, 0x00])))).map (fun t => (t.status.word, t.etype)) =
    some (0x00000116#32, 0) := by decide

/-- N4. -/
theorem test_frame_encode_n4 :
    (next? (exec .frameEncode (regs 0x800A0FFE 0x80050064 0x86DD [0xCA, 0xFE]))).map (fun t => (Memory.bytes t.wbuf 0 24, t.wlen)) =
    some (d12 ++ [0x88, 0xA8, 0x5F, 0xFE, 0x81, 0x00, 0xA0, 0x64, 0x86, 0xDD, 0xCA, 0xFE], 24) := by decide
/-- N11: the length is computed without wrap-around, and PBUF is not read. -/
theorem test_frame_encode_n11 :
    (next? (exec .frameEncode { regs 0x80000002 0x80000001 0x0800 [] with plen := 0xFFFF })).map (fun t => (t.status.word, t.wbuf)) =
    some (0x00000056#32, []) := by decide

/-! ### Lifecycle and access: vectors K of 95_test_vectors.md, one step each -/

/-- K20: a command that reads a byte never written since reset faults. -/
theorem test_k20_fault : exec .tagDecode (issue { State.reset with wlen := 2 } 1) = .fault (.undefinedByte .wbuf 0) := by rfl
/-- K3: an operand write while a command is in progress is dropped and recorded. -/
theorem test_k3_dropped : (next? (busOp (.regWrite 0x10 5) (wire [0x70, 0x0C]))).map (fun t => (t.wlen, t.status.word)) =
    some (2, 0x00010001#32) := by decide
/-- K7. -/
theorem test_k7_index_at_capacity : (next? (busOp (.bufWrite .wbuf 64 0xAA) State.reset)).map (fun t => (t.wbuf, t.status.word)) =
    some ([], 0x00010000#32) := by decide
/-- K9: reserved bits. -/
theorem test_k9_reserved_bits : (next? (busOp (.regWrite 0x10 0xFFFF0011) State.reset)).map (fun t => Reg.wlen.value t) =
    some 0x00000011#32 := by decide
/-- K10. -/
theorem test_k10_caps : (next? (busOp (.regRead 0x0C) State.reset)).map (fun t => t.reply) = some (.word 0x00010040#32) := by decide

/-- STATUS 0x00010026, as K14 starts. -/
def k14 : State :=
  { State.reset with
    status := { busy := false, done := true, err := true, errCode := some .malformedTag, errCtx := .none, viol := true } }
theorem test_k14_done_cleared_error_kept :
    k14.status.word = 0x00010026#32 ∧
      (next? (busOp (.regWrite 0x04 2) k14)).map (fun t => t.status.word) = some 0x00010024#32 := by decide
/-- K16: an issue clears the last report. -/
theorem test_k16_issue : (next? (busOp (.regWrite 0x00 2) k14)).map (fun t => t.status.word) = some 0x00010001#32 := by decide
/-- Line `run FRAME_ENCODE` of program P2, expanded. -/
theorem test_run_expands : assemble [.run .frameEncode] = [.op (.regWrite 0x00 0x00000004), .wait] := by decide

/-! ### States that meet the hypotheses of the statements -/

/-- A command in progress, nothing else but the turns given. -/
def busy (ts : List Turn) : State := { issue State.reset 1 with turns := ts }

theorem inv_reset : State.reset.Inv :=
  ⟨⟨by decide, by decide, by decide, by decide⟩, by decide, by decide, by decide, by decide⟩
theorem inv_busy (ts : List Turn) : (busy ts).Inv :=
  ⟨⟨fun _ => ⟨rfl, rfl⟩, ⟨fun _ => rfl, fun _ => rfl⟩, fun _ => rfl, fun h => absurd rfl h⟩, rfl, rfl, rfl, rfl⟩
theorem inv_wire : (wire [0x70, 0x0C]).Inv :=
  ⟨⟨by decide, by decide, by decide, by decide⟩, by decide, by decide, by decide, by decide⟩

theorem witness_DecoderAcceptsExactlyTheFourWords :
    (5 : Word) ≠ 0x00000001#32 ∧ (5 : Word) ≠ 0x00000002#32 ∧ (5 : Word) ≠ 0x00000003#32 ∧ (5 : Word) ≠ 0x00000004#32 := by decide
theorem witness_DecodeAndEncodeAgree : Instr.frameEncode.wf = true ∧ decodeCmd 0x00000004#32 = some .frameEncode := by decide
theorem witness_StepRunsTheDecodedCommand_turn :
    decodeCmd (busy [.engine]).pending = some .tagDecode ∧ (busy [.engine]).status.busy = true ∧
      (busy [.engine]).turns = [.engine] := by decide
theorem witness_StepRunsTheDecodedCommand_noTurn :
    decodeCmd (busy []).pending = some .tagDecode ∧ (busy []).status.busy = true ∧ (busy []).turns = [] := by decide
theorem witness_StepRunsTheDecodedCommand_idle :
    decodeCmd { State.reset with pending := 1, turns := [.engine] }.pending = some .tagDecode ∧
      { State.reset with pending := 1, turns := [.engine] }.status.busy = false := by decide
theorem witness_IllegalWordCompletesWithError :
    (issue State.reset 5).status.busy = true ∧ decodeCmd (issue State.reset 5).pending = none := by decide
theorem witness_TagDecodeResult : (wire [0x70, 0x0C]).wlen = 2 ∧ Memory.holds (wire [0x70, 0x0C]).wbuf (tagBody 3 true 12) [] := by
  decide
theorem witness_TagDecodeErrors_overflow : ({ State.reset with wlen := 65 } : State).cap.n < (65 : Half).toNat := by decide
theorem witness_TagDecodeErrors_malformed :
    (64 : Half).toNat ≤ ({ State.reset with wlen := 64 } : State).cap.n ∧ ({ State.reset with wlen := 64 } : State).wlen ≠ 2 := by decide
theorem witness_TagEncodeResult : (TagReg.ofWord 0x00000FFF).vid = (4095 : BitVec 12).setWidth 16 := by decide
theorem witness_TagEncodeRejectsInvalidVid : 4095 < (TagReg.ofWord 0x00001000).vid.toNat := by decide

/-- The addresses of A12. -/
def dstA : HwAddr := { b0 := 1, b1 := 1, b2 := 1, b3 := 1, b4 := 1, b5 := 1 }
def srcA : HwAddr := { b0 := 2, b1 := 2, b2 := 2, b3 := 2, b4 := 2, b5 := 2 }
/-- The addresses of D12. -/
def dstD : HwAddr := { b0 := 1, b1 := 2, b2 := 3, b3 := 4, b4 := 5, b5 := 6 }
def srcD : HwAddr := { b0 := 0x0A, b1 := 0x0B, b2 := 0x0C, b3 := 0x0D, b4 := 0x0E, b5 := 0x0F }

/-- F1: 14 bytes. -/
theorem witness_FrameDecodeUntaggedResult :
    be16 0x08 0x06 ≠ 0x8100#16 ∧ be16 0x08 0x06 ≠ 0x88A8#16 ∧
    (wire (a12 ++ [0x08, 0x06])).wlen.toNat = (dstA.bytes ++ srcA.bytes ++ [0x08, 0x06] ++ []).length ∧
    (dstA.bytes ++ srcA.bytes ++ [0x08, 0x06] ++ []).length ≤ (wire (a12 ++ [0x08, 0x06])).cap.n ∧
    Memory.holds (wire (a12 ++ [0x08, 0x06])).wbuf (dstA.bytes ++ srcA.bytes ++ [0x08, 0x06] ++ []) [] := by decide
/-- F6: the EtherType after the tag is a TPID value. -/
theorem witness_FrameDecodeSingleTaggedResult :
    (wire (a12 ++ [0x81, 0, 0, 5, 0x81, 0])).wlen.toNat =
      (dstA.bytes ++ srcA.bytes ++ [0x81, 0x00] ++ tagBody 0 false 5 ++ [0x81, 0x00] ++ []).length ∧
    (dstA.bytes ++ srcA.bytes ++ [0x81, 0x00] ++ tagBody 0 false 5 ++ [0x81, 0x00] ++ []).length ≤ State.reset.cap.n ∧
    Memory.holds (wire (a12 ++ [0x81, 0, 0, 5, 0x81, 0])).wbuf
      (dstA.bytes ++ srcA.bytes ++ [0x81, 0x00] ++ tagBody 0 false 5 ++ [0x81, 0x00] ++ []) [] := by decide
/-- F3, and with other bytes at offset 16. -/
theorem witness_FrameDecodeQinQResult :
    (wire (a12 ++ [0x88, 0xA8, 0xA0, 0x64, 0x81, 0, 0, 0xC8, 8, 0])).wlen.toNat =
      (dstA.bytes ++ srcA.bytes ++ [0x88, 0xA8] ++ tagBody 5 false 100 ++ [9, 9] ++ tagBody 0 false 200 ++ [8, 0] ++ []).length ∧
    (dstA.bytes ++ srcA.bytes ++ [0x88, 0xA8] ++ tagBody 5 false 100 ++ [9, 9] ++ tagBody 0 false 200 ++ [8, 0] ++ []).length
      ≤ State.reset.cap.n ∧
    Memory.holds (wire (a12 ++ [0x88, 0xA8, 0xA0, 0x64, 0x81, 0, 0, 0xC8, 8, 0])).wbuf
      (dstA.bytes ++ srcA.bytes ++ [0x88, 0xA8] ++ tagBody 5 false 100 ++ [9, 9] ++ tagBody 0 false 200 ++ [8, 0] ++ [])
      [16, 17] := by decide
theorem witness_FrameDecodeErrors_overflow : State.reset.cap.n < ({ State.reset with wlen := 65 } : State).wlen.toNat := by decide
theorem witness_FrameDecodeErrors_short :
    (wire (a12 ++ [0x81])).wlen.toNat ≤ State.reset.cap.n ∧ (wire (a12 ++ [0x81])).wlen.toNat < 14 := by decide
/-- W10: 17 bytes. -/
theorem witness_FrameDecodeErrors_customer :
    let s := wire (a12 ++ [0x81, 0x00, 0x70, 0x0C, 0x08])
    s.wlen.toNat ≤ s.cap.n ∧ 14 ≤ s.wlen.toNat ∧ s.wlen.toNat < 18 ∧ Memory.read s.wbuf 12 = some 0x81 ∧
      Memory.read s.wbuf 13 = some 0x00 := by decide
/-- W11: 21 bytes. -/
theorem witness_FrameDecodeErrors_service :
    let s := wire (a12 ++ [0x88, 0xA8, 0x70, 0x0C, 0x81, 0x00, 0x70, 0x0C, 0x08])
    s.wlen.toNat ≤ s.cap.n ∧ 14 ≤ s.wlen.toNat ∧ s.wlen.toNat < 22 ∧ Memory.read s.wbuf 12 = some 0x88 ∧
      Memory.read s.wbuf 13 = some 0xA8 := by decide

/-- The registers of D12 as the encode statements name them. -/
theorem witness_addresses :
    (regs 0 0 0x0800 []).dstHi = be16 dstD.b0 dstD.b1 ∧ (regs 0 0 0x0800 []).dstLo = be32 dstD.b2 dstD.b3 dstD.b4 dstD.b5 ∧
    (regs 0 0 0x0800 []).srcHi = be16 srcD.b0 srcD.b1 ∧ (regs 0 0 0x0800 []).srcLo = be32 srcD.b2 srcD.b3 srcD.b4 srcD.b5 ∧
    (regs 0 0 0x0800 []).etype = be16 0x08 0x00 := by decide
/-- N2: the fields of absent tags are ignored; the longest payload that fits. -/
theorem witness_FrameEncodeUntaggedResult :
    let s := regs 0x0000FFFF 0x0000FFFF 0x0800 (List.replicate 50 0)
    s.ctag.present = false ∧ s.stag.present = false ∧ s.plen.toNat = (List.replicate 50 (0 : Byte)).length ∧
    Memory.holds s.pbuf (List.replicate 50 0) [] ∧
    (dstD.bytes ++ srcD.bytes ++ [0x08, 0x00] ++ List.replicate 50 0).length ≤ s.cap.n := by decide
/-- N3. -/
theorem witness_FrameEncodeSingleTaggedResult :
    let s := regs 0 0x80050064 0x0800 [0xCA, 0xFE]
    s.ctag = presentTag 5 false 100 ∧ s.stag.present = false ∧ s.plen.toNat = 2 ∧ Memory.holds s.pbuf [0xCA, 0xFE] [] ∧
    (dstD.bytes ++ srcD.bytes ++ [0x81, 0x00] ++ tagBody 5 false 100 ++ [0x08, 0x00] ++ [0xCA, 0xFE]).length ≤ s.cap.n := by decide
/-- N4. -/
theorem witness_FrameEncodeQinQResult :
    let s := regs 0x800A0FFE 0x80050064 0x86DD [0xCA, 0xFE]
    s.ctag = presentTag 5 false 100 ∧ s.stag = presentTag 2 true 4094 ∧ s.plen.toNat = 2 ∧
    Memory.holds s.pbuf [0xCA, 0xFE] [] ∧
    (dstD.bytes ++ srcD.bytes ++ [0x88, 0xA8] ++ tagBody 2 true 4094 ++ [0x81, 0x00] ++ tagBody 5 false 100 ++ [0x86, 0xDD]
      ++ [0xCA, 0xFE]).length ≤ s.cap.n := by decide
/-- N6. -/
theorem witness_FrameEncodeErrors_inconsistent :
    let s := regs 0x80001000 0 0x0800 []
    s.stag.present = true ∧ s.ctag.present = false := by decide
/-- N7. -/
theorem witness_FrameEncodeErrors_service :
    let s := regs 0x80001000 0x80001000 0x0800 []
    s.stag.present = true ∧ s.ctag.present = true ∧ 4095 < s.stag.vid.toNat := by decide
/-- N8 and W13. -/
theorem witness_FrameEncodeErrors_customer :
    let s := regs 0x80000FFF 0x80001000 0x0800 []
    (s.stag.present = true → s.stag.vid.toNat ≤ 4095) ∧ s.ctag.present = true ∧ 4095 < s.ctag.vid.toNat := by decide
/-- N10: 65 bytes. -/
theorem witness_FrameEncodeErrors_overflow :
    let s := regs 0x80000002 0x80000001 0x0800 (List.replicate 43 0)
    (s.stag.present = true → s.ctag.present = true ∧ s.stag.vid.toNat ≤ 4095) ∧
    (s.ctag.present = true → s.ctag.vid.toNat ≤ 4095) ∧
    s.cap.n < 14 + (if s.stag.present then 4 else 0) + (if s.ctag.present then 4 else 0) + s.plen.toNat := by decide

theorem witness_EveryCommandCompletes :
    Memory.definedBelow (wire (a12 ++ [8, 0])).wbuf (wire (a12 ++ [8, 0])).wlen.toNat ∧
      Memory.definedBelow (wire (a12 ++ [8, 0])).pbuf (wire (a12 ++ [8, 0])).plen.toNat := by decide
theorem witness_FaultOnlyOnUnwrittenByte : ∃ s r, exec .tagDecode s = .fault r := ⟨_, _, test_k20_fault⟩
theorem witness_UnwrittenByteFaults_tagDecode :
    ({ wire [0x70] with wlen := 2 } : State).wlen = 2 ∧ Memory.read (wire [0x70]).wbuf 1 = none := by decide
/-- A frame of 14 bytes whose TPID's second byte is unwritten, and an untagged one of 15 whose last byte is. -/
theorem witness_UnwrittenByteFaults_untagged :
    ({ wire (a12 ++ [0x81]) with wlen := 14 } : State).decodeNeeds 13 ∧ Memory.read (wire (a12 ++ [0x81])).wbuf 13 = none ∧
    ({ wire (a12 ++ [0x86, 0xDD]) with wlen := 15 } : State).decodeNeeds 14 ∧
      Memory.read (wire (a12 ++ [0x86, 0xDD])).wbuf 14 = none := by decide
theorem witness_UnwrittenByteFaults_singleTagged :
    ({ wire (a12 ++ [0x81, 0x00]) with wlen := 18 } : State).decodeNeeds 17 ∧
      Memory.read (wire (a12 ++ [0x81, 0x00])).wbuf 17 = none := by decide
/-- A QinQ frame of 22 bytes, written up to its outer TPID. -/
def qinqGap : State := { wire (a12 ++ [0x88, 0xA8]) with wlen := 22 }
/-- The bytes beside the inner TPID are needed, its own are not. -/
theorem witness_UnwrittenByteFaults_qinq :
    qinqGap.decodeNeeds 15 ∧ ¬ qinqGap.decodeNeeds 16 ∧ ¬ qinqGap.decodeNeeds 17 ∧ qinqGap.decodeNeeds 18 ∧
      Memory.read qinqGap.wbuf 18 = none := ⟨by decide, by decide, by decide, by decide, by decide⟩
theorem witness_UnwrittenByteFaults_frameEncode :
    let s : State := { regs 0x80000FFF 0x80000FFF 0x0800 [] with plen := 42 }
    s.encodable ∧ 41 < s.plen.toNat ∧ Memory.read s.pbuf 41 = none := by decide
theorem witness_CommandsAreStateless :
    let s := wire [0x70, 0x0C]
    let u : State := { s with irqEn := true, status := s.status.violate, draws := 9 }
    s.pending = u.pending ∧ s.opState = u.opState ∧ s.cap = u.cap := by decide
theorem witness_StaleBytesNeverInfluence :
    let s := wire [0x70, 0x0C]
    (∀ k, k < s.wlen.toNat → Memory.read [(0, 0x70), (1, 0x0C), (2, 0xFF)] k = Memory.read s.wbuf k) ∧
    (∀ k, k < s.plen.toNat → Memory.read [(0, 0xFF)] k = Memory.read s.pbuf k) := by decide
theorem witness_CommandsWriteOnlyTheirRanges : ∃ t, exec .tagDecode (wire [0x70, 0x0C]) = .next t := ⟨_, rfl⟩

theorem witness_TagRoundTrips :
    ({ pcp := 7, dei := true, vid := 4095 } : VlanTag).vid.toNat ≤ 4095 ∧ ([0xFF, 0xFF] : List Byte).length = 2 := by decide
theorem witness_EncodedFrameLength :
    ∃ b, frameEncode { dst := dstD, src := srcD, ctag := none, stag := none, etype := 0x0800, payload := [1] } = .ok b :=
  ⟨_, frameEncode_untagged ..⟩
/-- N4's frame, with the largest VLAN IDs. -/
theorem witness_FrameRoundTrips :
    let f : Frame := { dst := dstD, src := srcD, ctag := some { pcp := 5, dei := false, vid := 4095 },
                       stag := some { pcp := 2, dei := true, vid := 4095 }, etype := 0x8100, payload := [0xCA] }
    f.consistentlyTagged ∧ validTag f.ctag ∧ validTag f.stag ∧ ¬ f.masqueraded := by
  refine ⟨fun _ => rfl, ?_, ?_, by rintro ⟨h, -⟩; cases h⟩ <;> rintro x h <;> cases h <;> decide
theorem witness_ReencodingReproducesInput : ∃ f, frameDecode (dstA.bytes ++ srcA.bytes ++ [0x08, 0x06] ++ []) = .ok f :=
  ⟨_, frameDecode_untagged dstA srcA 0x08 0x06 [] (by decide) (by decide)⟩
theorem witness_RegisterRoundTrip :
    let s := regs 0x800A0FFE 0x80050064 0x86DD [0xCA, 0xFE]
    ¬ (s.ctag.present = false ∧ s.stag.present = false ∧ (s.etype = 0x8100#16 ∨ s.etype = 0x88A8#16)) ∧
      (next? (exec .frameEncode s)).map (fun t => t.status.err) = some false := by decide
theorem witness_WrittenFrameReadsBack : (List.replicate 64 (0 : Byte)).length ≤ State.reset.cap.n := by decide

theorem witness_CommandIssue : State.reset.status.busy = false ∧ (busy []).status.busy = true := by decide
/-- TAG_ENCODE straight after reset, K19. -/
theorem witness_CompletionStatusWord_success :
    (issue State.reset 2).Inv ∧ (issue State.reset 2).status.busy = true ∧
      (next? (engineStep (issue State.reset 2))).map (fun t => t.status.err) = some false :=
  ⟨⟨⟨by decide, by decide, by decide, by decide⟩, by decide, by decide, by decide, by decide⟩, by decide, by decide⟩
/-- The word 0, K1. -/
theorem witness_CompletionStatusWord_error :
    (wire [0x70, 0x0C]).Inv ∧ (wire [0x70, 0x0C]).status.busy = true ∧
      ∃ t, engineStep (wire [0x70, 0x0C]) = .next t ∧ t.status.err = true := ⟨inv_wire, rfl, _, rfl, rfl⟩
/-- `wire` issues the word 0, which is illegal. -/
theorem witness_ErrorCompletionChangesOnlyStatus :
    (wire [0x70, 0x0C]).Inv ∧ (wire [0x70, 0x0C]).status.busy = true ∧
      ∃ t, engineStep (wire [0x70, 0x0C]) = .next t ∧ t.status.err = true := ⟨inv_wire, rfl, _, rfl, rfl⟩
theorem witness_InterruptFollowsCompletion :
    (busy []).Inv ∧ (busy []).status.busy = true ∧ (∃ t, engineStep (busy []) = .next t) ∧ k14.status.busy = false ∧
      (0x00000002#32).getLsbD 1 = true ∧ (0xFFFFFFFE#32).getLsbD 0 = false :=
  ⟨inv_busy [], rfl, ⟨_, rfl⟩, rfl, by decide, by decide⟩
theorem witness_RefusedExactlyWhenNotAnOperation : (BusOp.regRead 0x3C).wf = true ∧ (BusOp.regRead 0x40).wf = false := by decide
theorem witness_AccessWhileBusy : (busy []).status.busy = true ∧ 63 < (busy []).cap.n ∧
    ∃ t, busOp (.bufWrite .wbuf 65535 0) (busy []) = .next t := ⟨rfl, by decide, _, rfl⟩
theorem witness_OutOfRangeBufferIndex : State.reset.cap.n ≤ 64 ∧ State.reset.cap.n ≤ 65535 := by decide
theorem witness_RegisterReadsBackItsFields : State.reset.status.busy = false := by decide
theorem witness_BufferByteReadsBack : State.reset.status.busy = false ∧ 63 < State.reset.cap.n := by decide
theorem witness_ReadsHaveNoSideEffect : ∃ t, busOp (.regRead 0x04) k14 = .next t := ⟨_, rfl⟩
theorem witness_DecodedFrameIndependentOfWire : ∃ t, busOp (.bufWrite .wbuf 14 0) State.reset = .next t := ⟨_, rfl⟩
theorem witness_WaitPollsUntilIdle :
    ({ busy [] with host := [.wait] } : State).host = [.wait] ∧ (busy []).status.busy = true ∧ State.reset.status.busy = false := by
  decide
theorem witness_BlockWriteLandsInOrder :
    let s : State := { State.reset with host := assemble [.wb .pbuf 62 [0xCA, 0xFE]] }
    s.status.busy = false ∧ s.turns = [] ∧ s.host = (HostLine.wb .pbuf 62 [0xCA, 0xFE]).expand ++ [] ∧
      62 + ([0xCA, 0xFE] : List Byte).length ≤ s.cap.n := by decide
theorem witness_ResetStepClearsTheBlock : (busy [.reset]).turns = [.reset] := by decide
theorem witness_EveryStepKeepsTheInvariant : (busy [.engine]).Inv ∧ ∃ t, step (busy [.engine]) = .next t :=
  ⟨inv_busy _, _, rfl⟩
theorem witness_CapacityNeverChanges : ∃ t, step (busy [.reset]) = .next t := ⟨_, rfl⟩
theorem witness_OpStateFrozenWhileBusy :
    (busy [.host]).status.busy = true ∧ (busy [.host]).turns = [.host] ∧ ∃ t, step (busy [.host]) = .next t :=
  ⟨rfl, rfl, _, rfl⟩
theorem witness_ViolationRecordIsSticky_kept :
    (∃ t, step k14 = .next t) ∧ k14.status.viol = true ∧ (∀ ts, k14.turns ≠ .reset :: ts) ∧
      ∀ v rest, k14.host = .op (.regWrite 0x04 v) :: rest → v.getLsbD 16 = false :=
  ⟨⟨_, rfl⟩, rfl, fun _ h => (nomatch (show ([] : List Turn) = _ :: _ from h)),
    fun _ _ h => (nomatch (show ([] : List HostStmt) = _ :: _ from h))⟩
theorem witness_ViolationRecordIsSticky_set :
    let s : State := { State.reset with host := [.op (.bufWrite .wbuf 64 0xAA)] }
    s.status.viol = false ∧ (next? (step s)).map (fun t => t.status.viol) = some true := by decide
theorem witness_EngineStepIsEventuallyTaken :
    (busy [.host, .engine]).status.busy = true ∧ .reset ∉ (busy [.host, .engine]).turns ∧
      ∃ t, Host.Core.run core 3 (busy [.host, .engine]) = .next t := ⟨rfl, by decide, _, rfl⟩
theorem witness_StatusWordLayout :
    (k14.status.errCode, 2#4) ∈ [((none : Option ErrCode), 0#4), (some .malformedTag, 2#4)] ∧ k14.status.errCtx = .none := by decide
theorem witness_HostReadsWhenIdle :
    State.reset.status.busy = false ∧ 63 < State.reset.cap.n ∧ Memory.read (State.reset.buf .pbuf) 63 = none ∧
      Memory.read (({ State.reset with wbuf := [(63, 0x50)] } : State).buf .wbuf) 63 = some 0x50 := by decide
/-- PRESENT and STAG are not read by TAG_ENCODE. -/
theorem witness_ResultsDependOnlyOnReads :
    let s := issue State.reset 2
    let u : State := { s with ctag := { s.ctag with present := true }, stag := TagReg.ofWord 0x80001000, plen := 9, draws := 3 }
    s.pending = u.pending ∧ s.cap = u.cap ∧ ∀ i, decodeCmd s.pending = some i → sameReads i s u := by
  refine ⟨rfl, rfl, fun i h => ?_⟩
  have hi : Instr.tagEncode = i := Option.some.inj h
  subst hi
  exact ⟨rfl, rfl, rfl⟩

end Sys2Proof.Tests
end

section
/-! SUPPORT. The parameter BUF_CAP is a constant (00_scope.md R6): no way a step can go writes it. -/

namespace Sys2Proof.Machine

/-- No accepted register write changes BUF_CAP: CAPS itself ignores a write (R22, R56). -/
@[simp] theorem store_cap (r : Reg) (v : Word) (s : State) : (r.store v s).cap = s.cap := by cases r <;> rfl

/-- Reset keeps BUF_CAP (R148). -/
@[simp] theorem resetStep_cap (s : State) : (resetStep s).cap = s.cap := rfl

/-- No completion of a command changes BUF_CAP. -/
theorem Completed.cap_eq {i : Instr} {s t : State} (h : Completed i s t) : t.cap = s.cap := by cases h <;> rfl

/-- No bus operation changes BUF_CAP. -/
theorem BusStep.cap_eq {s t : State} {o : BusOp} (h : BusStep s o t) : t.cap = s.cap := by
  cases h with
  | read => rfl
  | dropReg => rfl
  | dropBuf => rfl
  | store off v r => exact store_cap r v s
  | write b i x => exact setBuf_cap s b _

/-- No host step changes BUF_CAP. -/
theorem HostDid.cap_eq {s t : State} (h : HostDid s t) : t.cap = s.cap := by
  cases h with
  | idle => rfl
  | poll => rfl
  | op o rest _ _ hbus => exact hbus.cap_eq

/-- No engine step changes BUF_CAP. -/
theorem engineCommand_cap (s t : State) (h : engineCommand s = .next t) : t.cap = s.cap := by
  obtain ⟨i, -, hdone⟩ | ⟨-, rfl⟩ := engineCommand_cases s t h
  · exact hdone.cap_eq
  · rfl

/-- No step of any agent changes BUF_CAP. -/
theorem step_cap (s t : State) (h : step s = .next t) : t.cap = s.cap := by
  obtain ⟨ts, -, ⟨hhost, -⟩ | ⟨-, hengine, -⟩ | ⟨-, -, rfl⟩ | ⟨-, rfl⟩⟩ := step_cases s t h
  · exact hhost.cap_eq
  · exact (engineCommand_cap { s with turns := ts } t hengine :)
  · rfl
  · exact resetStep_cap _

/-- Settles O54: every way a step can go keeps BUF_CAP, and CAPS reads nothing else. -/
theorem capacityNeverChanges : Obligations.CapacityNeverChanges := by
  intro s t h
  have hcap : t.cap = s.cap := step_cap s t h
  exact ⟨hcap, congrArg capsWord hcap⟩

end Sys2Proof.Machine
end

section
/-! SUPPORT. The numbers big-endian bytes stand for (00_scope.md R12). -/

namespace Sys2Proof.Machine

/-- One step of Horner's rule: a byte joined below a number that has room for it is the number's next base-256 digit. -/
theorem toNat_shiftLeft_or_byte {n : Nat} (v : BitVec n) (y : Byte) (h : 256 * v.toNat + 255 < 2 ^ n) :
    (v <<< 8 ||| y.setWidth n).toNat = 256 * v.toNat + y.toNat := by
  have hy : y.toNat < 2 ^ 8 := y.isLt
  have hv : v.toNat <<< 8 = 256 * v.toNat := by rw [Nat.shiftLeft_eq, Nat.mul_comm]
  rw [BitVec.toNat_or, BitVec.toNat_shiftLeft, BitVec.toNat_setWidth,
    Nat.mod_eq_of_lt (by omega : v.toNat <<< 8 < 2 ^ n), Nat.mod_eq_of_lt (by omega : y.toNat < 2 ^ n),
    ← Nat.shiftLeft_add_eq_or_of_lt hy, hv]

/-- `be32` in Horner's form: one byte is shifted in at a time. -/
theorem be32_eq_horner (w x y z : Byte) :
    be32 w x y z = (((w.setWidth 32 <<< 8 ||| x.setWidth 32) <<< 8 ||| y.setWidth 32) <<< 8) ||| z.setWidth 32 := by
  simp only [be32, BitVec.shiftLeft_or_distrib, ← BitVec.shiftLeft_add, Nat.reduceAdd]

/-- Two bytes read as two base-256 digits (R12). -/
theorem toNat_be16 (x y : Byte) : (be16 x y).toNat = 256 * x.toNat + y.toNat := by
  have hx : (x.setWidth 16).toNat = x.toNat := BitVec.toNat_setWidth_of_le (by decide)
  rw [be16, toNat_shiftLeft_or_byte _ _ (by omega), hx]

/-- Four bytes read as four base-256 digits (R12). -/
theorem toNat_be32 (w x y z : Byte) :
    (be32 w x y z).toNat = 16777216 * w.toNat + 65536 * x.toNat + 256 * y.toNat + z.toNat := by
  have hw : (w.setWidth 32).toNat = w.toNat := BitVec.toNat_setWidth_of_le (by decide)
  have h2 := toNat_shiftLeft_or_byte (w.setWidth 32) x (by omega)
  have h3 := toNat_shiftLeft_or_byte (w.setWidth 32 <<< 8 ||| x.setWidth 32) y (by omega)
  rw [be32_eq_horner, toNat_shiftLeft_or_byte _ z (by omega)]
  omega

/-- Settles O33: the numbers by Horner's rule in base 256, the bytes by the packing laws. -/
theorem bigEndianPacking : Obligations.BigEndianPacking :=
  ⟨fun x y => ⟨toNat_be16 x y, bytes16_be16 x y⟩,
   fun w x y z => ⟨toNat_be32 w x y z, regAddr_pack { b0 := w, b1 := x, b2 := w, b3 := x, b4 := y, b5 := z }⟩⟩

end Sys2Proof.Machine
end

section
/-! SUPPORT. The invariant of the machine: each way STATUS changes keeps its own part (10_state.md R20; 60_exceptions.md
R129), and every completion, bus operation and step keeps the whole. -/

namespace Sys2Proof.Machine

/-! ### STATUS -/

theorem Status.Inv.reset : Status.reset.Inv where
  busy_clears := nofun
  code_iff := ⟨fun _ => rfl, fun _ => rfl⟩
  ctx_none _ := rfl
  ctx_tagged h := absurd rfl h

/-- An issue clears the report, whatever STATUS was (R117). -/
theorem Status.Inv.issue (st : Status) : st.issue.Inv where
  busy_clears _ := ⟨rfl, rfl⟩
  code_iff := ⟨fun _ => rfl, fun _ => rfl⟩
  ctx_none _ := rfl
  ctx_tagged h := absurd rfl h

theorem Status.Inv.succeed {st : Status} (h : st.Inv) : st.succeed.Inv where
  busy_clears := nofun
  code_iff := h.code_iff
  ctx_none := h.ctx_none
  ctx_tagged := h.ctx_tagged

/-- An error completion, whatever STATUS was: the reports of R128 and R129 name a tag only where a tag can be at fault. -/
theorem Status.Inv.fail (st : Status) {e : CodecError} {i : Option Instr} (he : e.raisedBy i) : (st.fail e).Inv where
  busy_clears := nofun
  code_iff := ⟨nofun, nofun⟩
  ctx_none := nofun
  ctx_tagged hctx := by simpa using raisedBy_ctx e i he hctx

theorem Status.Inv.violate {st : Status} (h : st.Inv) : st.violate.Inv where
  busy_clears := h.busy_clears
  code_iff := h.code_iff
  ctx_none := h.ctx_none
  ctx_tagged := h.ctx_tagged

theorem Status.Inv.writeOneToClear {st : Status} (h : st.Inv) (v : Word) : (st.writeOneToClear v).Inv where
  busy_clears hbusy := by
    obtain ⟨hdone, herr⟩ := h.busy_clears hbusy
    exact ⟨by simp [hdone], herr⟩
  code_iff := h.code_iff
  ctx_none := h.ctx_none
  ctx_tagged := h.ctx_tagged

/-- ILLEGAL_COMMAND is the report of an illegal word (R121). -/
theorem illegalCommand_raisedBy : CodecError.raisedBy { code := .illegalCommand, ctx := .none } none :=
  ⟨0x00000066, by simp [errorReports]⟩

/-! ### The whole machine -/

/-- What a step may do to a buffer of capacity `n`: nothing, or write one block of bytes below the capacity. -/
inductive Memory.WrittenBelow (n : Nat) (m : Memory) : Memory → Prop where
  | same : WrittenBelow n m m
  | block (a : Nat) (bs : List Byte) (h : a + bs.length ≤ n) : WrittenBelow n m (Memory.writeBytes m a bs)

theorem Memory.WrittenBelow.wf {n : Nat} {m m' : Memory} (h : WrittenBelow n m m') (hm : Memory.wf m = true) :
    Memory.wf m' = true := by
  cases h with
  | same => exact hm
  | block a bs _ => exact wf_writeBytes m a bs hm

theorem Memory.WrittenBelow.below {n : Nat} {m m' : Memory} (h : WrittenBelow n m m') (hm : Memory.below m n = true) :
    Memory.below m' n = true := by
  cases h with
  | same => exact hm
  | block a bs hn => exact below_writeBytes m a n bs hm hn

/-- The invariant looks at BUF_CAP, STATUS and the buffers only, and a block write below BUF_CAP keeps its part. -/
theorem State.Inv.of_written {s t : State} (h : s.Inv) (hcap : t.cap = s.cap) (hst : t.status.Inv)
    (hw : Memory.WrittenBelow s.cap.n s.wbuf t.wbuf) (hp : Memory.WrittenBelow s.cap.n s.pbuf t.pbuf) : t.Inv where
  status := hst
  wbuf_wf := hw.wf h.wbuf_wf
  pbuf_wf := hp.wf h.pbuf_wf
  wbuf_below := hcap ▸ hw.below h.wbuf_below
  pbuf_below := hcap ▸ hp.below h.pbuf_below

/-- A step that writes no buffer need only keep STATUS consistent. -/
theorem State.Inv.of_status {s t : State} (h : s.Inv) (hcap : t.cap = s.cap) (hst : t.status.Inv)
    (hw : t.wbuf = s.wbuf) (hp : t.pbuf = s.pbuf) : t.Inv :=
  h.of_written hcap hst (hw ▸ .same) (hp ▸ .same)

/-- The block after reset, whatever surrounds it. -/
theorem State.Inv.of_reset {t : State} (hst : t.status = Status.reset) (hw : t.wbuf = []) (hp : t.pbuf = []) : t.Inv where
  status := hst ▸ Status.Inv.reset
  wbuf_wf := hw ▸ wf_nil
  pbuf_wf := hp ▸ wf_nil
  wbuf_below := hw ▸ below_nil _
  pbuf_below := hp ▸ below_nil _

/-- A completion keeps the invariant: what a command writes fits the buffer it writes (R47, R110). -/
theorem Completed.keeps_inv {i : Instr} {s t : State} (h : Completed i s t) (hs : s.Inv) : t.Inv := by
  cases h with
  | error e he => exact hs.of_status rfl (Status.Inv.fail s.status he) rfl rfl
  | tagDecode => exact hs.of_status rfl hs.status.succeed rfl rfl
  | tagEncode bs _ hl =>
    have hroom : 0 + bs.length ≤ s.cap.n := by have := s.cap.lo; omega
    exact hs.of_written rfl hs.status.succeed (.block 0 bs hroom) .same
  | frameDecode f _ hcap _ hl => exact hs.of_written rfl hs.status.succeed .same (.block 0 f.payload (by omega))
  | frameEncode out _ _ _ _ hcap => exact hs.of_written rfl hs.status.succeed (.block 0 out (by omega)) .same

/-- An engine step keeps the invariant. -/
theorem engineCommand_keeps_inv {s t : State} (h : engineCommand s = .next t) (hs : s.Inv) : t.Inv := by
  obtain ⟨i, -, hdone⟩ | ⟨-, rfl⟩ := engineCommand_cases s t h
  · exact hdone.keeps_inv hs
  · exact hs.of_status rfl (Status.Inv.fail s.status illegalCommand_raisedBy) rfl rfl

@[simp] theorem store_wbuf (r : Reg) (v : Word) (s : State) : (r.store v s).wbuf = s.wbuf := by cases r <;> rfl
@[simp] theorem store_pbuf (r : Reg) (v : Word) (s : State) : (r.store v s).pbuf = s.pbuf := by cases r <;> rfl

/-- Only CMD and STATUS change STATUS when written (R20, R117). -/
theorem store_status (r : Reg) (v : Word) (s : State) (hcmd : r ≠ .cmd) (hst : r ≠ .status) :
    (r.store v s).status = s.status := by
  cases r
  case cmd | status => contradiction
  all_goals rfl

/-- An accepted register write keeps STATUS consistent. -/
theorem store_keeps_statusInv (r : Reg) (v : Word) (s : State) (hs : s.status.Inv) : (r.store v s).status.Inv := by
  by_cases hcmd : r = .cmd
  · subst hcmd; exact Status.Inv.issue s.status
  by_cases hst : r = .status
  · subst hst; exact hs.writeOneToClear v
  · rwa [store_status r v s hcmd hst]

/-- A bus operation keeps the invariant: a byte at or above BUF_CAP is not stored (R57). -/
theorem BusStep.keeps_inv {s t : State} {o : BusOp} (h : BusStep s o t) (hs : s.Inv) : t.Inv := by
  cases h with
  | read => exact hs.of_status rfl hs.status rfl rfl
  | dropReg => exact hs.of_status rfl hs.status.violate rfl rfl
  | dropBuf => exact hs.of_status rfl hs.status.violate rfl rfl
  | store off v r =>
    exact hs.of_status (store_cap r v s) (store_keeps_statusInv r v s hs.status) (store_wbuf r v s) (store_pbuf r v s)
  | write b i x _ hi =>
    cases b with
    | wbuf => exact hs.of_written rfl hs.status (.block i [x] hi) .same
    | pbuf => exact hs.of_written rfl hs.status .same (.block i [x] hi)

/-- A host step keeps the invariant. -/
theorem HostDid.keeps_inv {s t : State} (h : HostDid s t) (hs : s.Inv) : t.Inv := by
  cases h with
  | idle => exact hs
  | poll => exact hs.of_status rfl hs.status rfl rfl
  | op o rest _ _ hbus => exact hbus.keeps_inv (hs.of_status rfl hs.status rfl rfl)

/-- Settles O53: the agent whose turn it is keeps the invariant, and taking its turn off the list does not touch it. -/
theorem everyStepKeepsTheInvariant : Obligations.EveryStepKeepsTheInvariant := by
  intro s t hs h
  obtain ⟨ts, -, hstep⟩ := step_cases s t h
  have hturn : ({ s with turns := ts } : State).Inv := hs.of_status rfl hs.status rfl rfl
  obtain ⟨hhost, -⟩ | ⟨-, hengine, -⟩ | ⟨-, -, rfl⟩ | ⟨-, rfl⟩ := hstep
  · exact hhost.keeps_inv hturn
  · exact engineCommand_keeps_inv hengine hturn
  · exact hturn
  · exact .of_reset rfl rfl rfl

/-- Settles O52: after reset STATUS is zero and nothing is listed in the buffers. -/
theorem invariantAtReset : Obligations.InvariantAtReset :=
  ⟨fun _ => .of_reset rfl rfl rfl, .of_reset rfl rfl rfl⟩

end Sys2Proof.Machine
end

section
/-! SUPPORT. Which bytes FRAME_DECODE examines, as its result needs them (41_frame_ops.md R97 to R99; log entry 4). -/

namespace Sys2Proof.Machine

/-- A byte FRAME_DECODE examines is one of the TPID, or belongs to a sequence as long as its tag depth needs, and there not
to the inner TPID of a QinQ frame. -/
theorem mem_frameBytesExamined {b : List Byte} {k : Nat} (h : k ∈ frameBytesExamined b) :
    14 ≤ b.length ∧ ((k = 12 ∨ k = 13) ∨
      (candidate b = tpidCustomer → 18 ≤ b.length) ∧ (candidate b = tpidService → 22 ≤ b.length ∧ k ≠ 16 ∧ k ≠ 17)) := by
  simp only [frameBytesExamined] at h
  split at h
  · simp at h
  rename_i h14
  refine ⟨by omega, ?_⟩
  split at h
  · exact .inl (by simpa using h)
  rename_i hshort
  have h18 : candidate b = tpidCustomer → 18 ≤ b.length := fun hc => by
    have : ¬ b.length < 18 := fun hn => hshort ⟨hc, hn⟩
    omega
  split at h
  · split at h
    · exact .inl (by simpa using h)
    · have hk : k < 16 ∨ 18 ≤ k := by
        simp only [List.mem_append, List.mem_range, List.mem_range'_1] at h
        omega
      exact .inr ⟨h18, fun _ => by omega⟩
  · rename_i hs
    exact .inr ⟨h18, fun hc => absurd hc hs⟩

/-- An unwritten byte FRAME_DECODE examines is one its result depends on. -/
theorem decodeNeeds_of_examined {s : State} {k : Nat} (hcap : s.wlen.toNat ≤ s.cap.n)
    (hk : k ∈ frameBytesExamined (Memory.bytes s.wbuf 0 s.wlen.toNat)) (hread : Memory.read s.wbuf k = none) :
    s.decodeNeeds k := by
  have hlt := frameBytesExamined_lt _ _ hk
  obtain ⟨h14, hneed⟩ := mem_frameBytesExamined hk
  rw [bytes_length] at hlt h14 hneed
  -- where the TPID itself is unwritten, both clauses about its value are empty
  have hdepth : ∀ x y, Memory.read s.wbuf 12 = some x → Memory.read s.wbuf 13 = some y →
      candidate (Memory.bytes s.wbuf 0 s.wlen.toNat) = be16 x y ∧ ¬ (k = 12 ∨ k = 13) := fun x y hx hy => by
    refine ⟨candidate_bytes _ x y _ h14 hx hy, ?_⟩
    rintro (rfl | rfl) <;> simp_all
  refine ⟨h14, hcap, hlt, fun hx hy => ?_, fun hx hy => ?_⟩ <;>
    obtain ⟨hcand, htpid⟩ := hdepth _ _ hx hy
  · exact (hneed.resolve_left htpid).1 hcand
  · exact (hneed.resolve_left htpid).2 hcand

/-- The registers hold an encodable frame exactly when every check of FRAME_ENCODE passes (R110). -/
theorem frameEncodeChecks_ok_iff_encodable (s : State) : frameEncodeChecks s = .ok () ↔ s.encodable := by
  rw [frameEncodeChecks_ok, regFrameLength_eq]

/-- Settles O19: a fault names an examined byte, and each command examines only what its result depends on. -/
theorem faultOnlyOnUnwrittenByte : Obligations.FaultOnlyOnUnwrittenByte := by
  intro i s r h
  obtain ⟨k, hk, hread, hfault⟩ | ⟨-, t, hnext, -⟩ := exec_cases i s
  swap
  · rw [h] at hnext; cases hnext
  obtain rfl : r = .undefinedByte (examined i s).1 k := by rw [h] at hfault; cases hfault; rfl
  refine ⟨k, ?_⟩
  cases i with
  | tagDecode =>
    refine .inl ⟨rfl, rfl, hread, ?_⟩
    simp only [examined, tagBytesExamined] at hk
    split at hk
    · simp at hk
    split at hk
    · rename_i h2
      exact ⟨BitVec.eq_of_toNat_eq h2, by simp at hk; omega⟩
    · simp at hk
  | tagEncode => simp [examined] at hk
  | frameDecode =>
    refine .inr (.inl ⟨rfl, rfl, hread, ?_⟩)
    simp only [examined] at hk
    split at hk
    · simp at hk
    · exact decodeNeeds_of_examined (by omega) hk hread
  | frameEncode =>
    refine .inr (.inr ⟨rfl, rfl, hread, ?_⟩)
    cases hchecks : frameEncodeChecks s with
    | error e => simp [examined, hchecks] at hk
    | ok u => exact ⟨(frameEncodeChecks_ok_iff_encodable s).1 hchecks, by simpa [examined, hchecks] using hk⟩

end Sys2Proof.Machine
end

section
/-! SUPPORT. A command as a value: which value it computes, and where that value is written. What it computes is a function
of what it reads (10_state.md R38; 30_encoding.md R80). -/

namespace Sys2Proof.Machine

/-- The type of the value a command computes (R80). -/
abbrev Result (i : Instr) : Type :=
  match i with
  | .tagDecode => VlanTag
  | .tagEncode => List Byte
  | .frameDecode => Frame
  | .frameEncode => List Byte

/-- The value a command computes, or the error it reports, given that no byte it examines is unwritten. -/
def computed (i : Instr) (s : State) : Except CodecError (Result i) :=
  match i with
  | .tagDecode =>
    if s.cap.n < s.wlen.toNat then .error ⟨.bufferOverflow, .none⟩
    else tagDecode (Memory.bytes s.wbuf 0 s.wlen.toNat) .none
  | .tagEncode => tagEncode s.ctag.tag .none
  | .frameDecode =>
    if s.cap.n < s.wlen.toNat then .error ⟨.bufferOverflow, .none⟩
    else frameDecode (Memory.bytes s.wbuf 0 s.wlen.toNat)
  | .frameEncode => do
    frameEncodeChecks s
    frameEncode (regFrame s)

/-- Where a command puts the value it computed. -/
def put (i : Instr) (r : Result i) (s : State) : State :=
  match i, r with
  | .tagDecode, t => { s with ctag := tagReg (some t) }
  | .tagEncode, bs => { s with wbuf := Memory.writeBytes s.wbuf 0 bs, wlen := 2 }
  | .frameDecode, f => writeFrame s f
  | .frameEncode, out => { s with wbuf := Memory.writeBytes s.wbuf 0 out, wlen := BitVec.ofNat 16 out.length }

/-- Every command is one guarded completion: its examined bytes, the value it computes, and where it puts it. -/
theorem exec_eq_examine (i : Instr) (s : State) :
    exec i s = examine s (examined i s).1 (examined i s).2 ((computed i s).map (put i · s)) := by
  cases i with
  | tagDecode =>
    simp only [exec, execTagDecode, examined, computed]
    split
    · rfl
    · cases tagDecode (Memory.bytes s.wbuf 0 s.wlen.toNat) .none <;> rfl
  | tagEncode =>
    simp only [exec, execTagEncode, examined, computed]
    cases tagEncode s.ctag.tag .none <;> rfl
  | frameDecode =>
    simp only [exec, execFrameDecode, examined, computed]
    split
    · rfl
    · cases frameDecode (Memory.bytes s.wbuf 0 s.wlen.toNat) <;> rfl
  | frameEncode =>
    simp only [exec, execFrameEncode, examined, computed]
    cases hchecks : frameEncodeChecks s with
    | error e => rfl
    | ok u =>
      obtain ⟨out, hout, hl, -⟩ := frameEncode_of_checks s hchecks
      simp only [hout, ← hl]
      rfl

/-- FRAME_ENCODE's checks look at the tags, PLEN and BUF_CAP only. -/
theorem frameEncodeChecks_congr {s₁ s₂ : State} (hcap : s₁.cap = s₂.cap) (hctag : s₁.ctag = s₂.ctag)
    (hstag : s₁.stag = s₂.stag) (hplen : s₁.plen = s₂.plen) : frameEncodeChecks s₁ = frameEncodeChecks s₂ := by
  rw [frameEncodeChecks, frameEncodeChecks, regFrameLength, regFrameLength, hcap, hctag, hstag, hplen]

/-- What a command examines and what it computes are functions of what it reads and of BUF_CAP. -/
theorem examined_and_computed_congr {i : Instr} {s₁ s₂ : State} (hcap : s₁.cap = s₂.cap) (h : sameReads i s₁ s₂) :
    examined i s₁ = examined i s₂ ∧ computed i s₁ = computed i s₂ := by
  cases i with
  | tagDecode =>
    obtain ⟨hwlen, hread⟩ := h
    have hbytes := bytes_congr _ _ _ (hwlen ▸ hread)
    simp only [examined, computed, hcap, hwlen, hbytes, and_self]
  | tagEncode =>
    obtain ⟨hvid, hpcp, hdei⟩ := h
    simp only [examined, computed, TagReg.tag, hvid, hpcp, hdei, and_self]
  | frameDecode =>
    obtain ⟨hwlen, hread⟩ := h
    have hbytes := bytes_congr _ _ _ (hwlen ▸ hread)
    simp only [examined, computed, hcap, hwlen, hbytes, and_self]
  | frameEncode =>
    obtain ⟨hdstHi, hdstLo, hsrcHi, hsrcLo, hetype, hctag, hstag, hplen, hread⟩ := h
    have hchecks := frameEncodeChecks_congr hcap hctag hstag hplen
    have hframe : regFrame s₁ = regFrame s₂ := by
      have hbytes := bytes_congr _ _ _ (hplen ▸ hread)
      simp only [regFrame, hdstHi, hdstLo, hsrcHi, hsrcLo, hetype, hctag, hstag, hplen, hbytes]
    simp only [examined, computed, hchecks, hframe, hplen, and_self]

/-- A command examines only bytes it reads. -/
theorem read_congr_of_examined {i : Instr} {s₁ s₂ : State} (h : sameReads i s₁ s₂) {k : Nat} (hk : k ∈ (examined i s₁).2) :
    Memory.read (s₁.buf (examined i s₁).1) k = Memory.read (s₂.buf (examined i s₁).1) k := by
  cases i with
  | tagDecode =>
    obtain ⟨-, hread⟩ := h
    simp only [examined] at hk
    split at hk
    · simp at hk
    · exact hread k (tagBytesExamined_lt _ _ hk)
  | tagEncode => simp [examined] at hk
  | frameDecode =>
    obtain ⟨-, hread⟩ := h
    simp only [examined] at hk
    split at hk
    · simp at hk
    · exact hread k (by simpa using frameBytesExamined_lt _ _ hk)
  | frameEncode =>
    obtain ⟨-, -, -, -, -, -, -, -, hread⟩ := h
    simp only [examined] at hk
    split at hk
    · simp at hk
    · exact hread k (by simpa using hk)

/-- Two answers that differ only as the states they were given in: the same fault, the same error, or the same value put
in its place. -/
inductive SameAnswer (c : Option Instr) (s₁ s₂ : State) :
    Host.Outcome State Fault Refusal → Host.Outcome State Fault Refusal → Prop where
  | fault (r : Fault) : SameAnswer c s₁ s₂ (.fault r) (.fault r)
  | error (e : CodecError) : SameAnswer c s₁ s₂ (.next (raiseError s₁ e)) (.next (raiseError s₂ e))
  | put (i : Instr) (hi : c = some i) (r : Result i) (hr : computed i s₁ = .ok r) :
      SameAnswer c s₁ s₂ (.next (succeed (put i r s₁))) (.next (succeed (put i r s₂)))

/-- A command answers alike in two states that agree on what it reads. -/
theorem sameAnswer_exec {i : Instr} {s₁ s₂ : State} (hcap : s₁.cap = s₂.cap) (h : sameReads i s₁ s₂) :
    SameAnswer (some i) s₁ s₂ (exec i s₁) (exec i s₂) := by
  obtain ⟨hexamined, hcomputed⟩ := examined_and_computed_congr hcap h
  have hguard := firstUndefined_congr _ _ _ fun k hk => read_congr_of_examined h (k := k) hk
  rw [exec_eq_examine i s₁, exec_eq_examine i s₂, ← hexamined, ← hcomputed, examine, examine, hguard]
  split
  · exact .fault _
  · cases hr : computed i s₁ with
    | error e => exact .error e
    | ok r => exact .put i rfl r hr

/-- The engine answers alike in two states that agree on PENDING and on what the command there reads. -/
theorem sameAnswer_engineCommand {s₁ s₂ : State} (hpending : s₁.pending = s₂.pending) (hcap : s₁.cap = s₂.cap)
    (h : ∀ i, decodeCmd s₁.pending = some i → sameReads i s₁ s₂) :
    SameAnswer (decodeCmd s₁.pending) s₁ s₂ (engineCommand s₁) (engineCommand s₂) := by
  simp only [engineCommand, ← hpending]
  cases hi : decodeCmd s₁.pending with
  | none => exact .error _
  | some i => exact sameAnswer_exec hcap (h i hi)

/-- Like answers fault alike. -/
theorem SameAnswer.fault_iff {c : Option Instr} {s₁ s₂ : State} {a₁ a₂ : Host.Outcome State Fault Refusal}
    (h : SameAnswer c s₁ s₂ a₁ a₂) (r : Fault) : a₁ = .fault r ↔ a₂ = .fault r := by
  cases h with
  | fault => rfl
  | error => exact ⟨nofun, nofun⟩
  | put => exact ⟨nofun, nofun⟩

/-- A successful completion changes only BUSY and DONE of STATUS (R119). -/
theorem succeed_put_status (i : Instr) (r : Result i) (s : State) :
    (succeed (put i r s)).status = { s.status with busy := false, done := true } := by
  cases i <;> rfl

/-- A byte of a block is read back, whatever stood in the buffer. -/
theorem read_writeBytes_congr (m₁ m₂ : Memory) (bs : List Byte) {k : Nat} (hk : k < bs.length) :
    Memory.read (Memory.writeBytes m₁ 0 bs) k = Memory.read (Memory.writeBytes m₂ 0 bs) k := by
  simp only [read_writeBytes_zero, if_pos hk]

/-- A length kept in a register's 16 bits is at most the length. -/
theorem toNat_ofNat16_le (n : Nat) : (BitVec.ofNat 16 n).toNat ≤ n := by
  rw [BitVec.toNat_ofNat]
  exact Nat.mod_le n _

/-- What a command computed is the same write wherever it is put (R80). -/
theorem sameWrites_put {i : Instr} {r : Result i} {s : State} (hr : computed i s = .ok r) (s₁ s₂ : State) :
    sameWrites i (succeed (put i r s₁)) (succeed (put i r s₂)) := by
  cases i with
  | tagDecode => rfl
  | tagEncode =>
    refine ⟨rfl, fun k hk => read_writeBytes_congr _ _ r ?_⟩
    obtain ⟨-, he⟩ | ⟨-, p, d, v, -, he⟩ := tagEncode_cases s.ctag.tag .none
    · cases he.symm.trans hr
    · cases he.symm.trans hr; exact hk
  | frameDecode =>
    refine ⟨rfl, rfl, rfl, rfl, rfl, rfl, rfl, rfl, fun k hk => read_writeBytes_congr _ _ r.payload ?_⟩
    exact lt_of_lt_of_le hk (toNat_ofNat16_le _)
  | frameEncode =>
    exact ⟨rfl, fun k hk => read_writeBytes_congr _ _ r (lt_of_lt_of_le hk (toNat_ofNat16_le _))⟩

/-- A value put in its place changes OPSTATE alike where it was the same (R37). -/
theorem opState_put_congr (i : Instr) (r : Result i) {s₁ s₂ : State} (h : s₁.opState = s₂.opState) :
    (put i r s₁).opState = (put i r s₂).opState := by
  simp only [State.opState, OpState.mk.injEq] at h
  cases i <;> simp [put, State.opState, h]

/-- States with the same OPSTATE agree on what any command reads. -/
theorem sameReads_of_opState (i : Instr) {s₁ s₂ : State} (h : s₁.opState = s₂.opState) : sameReads i s₁ s₂ := by
  simp only [State.opState, OpState.mk.injEq] at h
  cases i <;> simp [sameReads, h]

/-- Settles O60: like answers are the same fault, the same report, or the same writes. -/
theorem resultsDependOnlyOnReads : Obligations.ResultsDependOnlyOnReads := by
  intro s₁ s₂ hpending hcap hreads
  have h := sameAnswer_engineCommand hpending hcap hreads
  refine ⟨h.fault_iff, fun t₁ ht₁ => ?_⟩
  rw [ht₁] at h
  generalize engineCommand s₂ = a₂ at h
  cases h with
  | error e => exact ⟨_, rfl, .inr ⟨e.code, e.ctx, rfl, rfl⟩⟩
  | put i hi r hr =>
    exact ⟨_, rfl, .inl ⟨succeed_put_status i r s₁, succeed_put_status i r s₂, i, hi, sameWrites_put hr s₁ s₂⟩⟩

/-- Settles O21: with all of OPSTATE the same, each kind of answer leaves OPSTATE the same. -/
theorem commandsAreStateless : Obligations.CommandsAreStateless := by
  intro s₁ s₂ hpending hop hcap
  have h := sameAnswer_engineCommand hpending hcap fun i _ => sameReads_of_opState i hop
  refine ⟨h.fault_iff, fun t₁ ht₁ => ?_⟩
  rw [ht₁] at h
  generalize engineCommand s₂ = a₂ at h
  cases h with
  | error e => exact ⟨_, rfl, hop, .inr ⟨e.code, e.ctx, rfl, rfl⟩⟩
  | put i _ r _ =>
    exact ⟨_, rfl, opState_put_congr i r hop, .inl ⟨succeed_put_status i r s₁, succeed_put_status i r s₂⟩⟩

end Sys2Proof.Machine
end

section
/-! SUPPORT. A frame written to the registers is read back (10_state.md R33, R34). -/

namespace Sys2Proof.Machine

/-- A tag packed into its register is read back, and an absent one stays absent. -/
@[simp] theorem regTag_tagReg (t : Option VlanTag) : regTag (tagReg t) = t := by cases t <;> rfl

/-- A block written from index 0 is read back whole. -/
theorem bytes_writeBytes (m : Memory) (bs : List Byte) : Memory.bytes (Memory.writeBytes m 0 bs) 0 bs.length = bs :=
  bytes_of_holds _ bs fun i hi _ => by rw [read_writeBytes_zero, if_pos hi]

/-- `regFrame()` after `writeFrame(f)`, where the payload's length fits PLEN. -/
theorem regFrame_writeFrame (s : State) (f : Frame) (h : f.payload.length < 2 ^ 16) : regFrame (writeFrame s f) = f := by
  have hplen : (BitVec.ofNat 16 f.payload.length).toNat = f.payload.length := by
    rw [BitVec.toNat_ofNat, Nat.mod_eq_of_lt h]
  simp only [regFrame, writeFrame_dstHi, writeFrame_dstLo, writeFrame_srcHi, writeFrame_srcLo, writeFrame_ctag,
    writeFrame_stag, writeFrame_etype, writeFrame_plen, writeFrame_pbuf, regAddr_pack, regTag_tagReg, hplen, bytes_writeBytes]

/-- Settles O32: a payload that fits the buffer has a 16-bit length, and the block write ends at it. -/
theorem writtenFrameReadsBack : Obligations.WrittenFrameReadsBack := by
  intro s f hfits
  have hcap := s.cap.hi
  refine ⟨regFrame_writeFrame s f (by omega), fun k hk => ?_⟩
  rw [writeFrame_pbuf, read_writeBytes_zero, if_neg (by omega)]

end Sys2Proof.Machine
end

section
/-! SUPPORT. The words of STATUS and of the tag registers, field by field (10_state.md R20, R30). -/

namespace Sys2Proof.Machine

/-! ### STATUS -/

theorem status_word_flags (st : Status) : st.word.getLsbD 0 = st.busy ∧ st.word.getLsbD 1 = st.done ∧
    st.word.getLsbD 2 = st.err ∧ st.word.getLsbD 16 = st.viol := by
  simp [Status.word, bit_eq]

theorem status_word_errCode (st : Status) : st.word.extractLsb' 4 4 = errCodeBits st.errCode := by
  apply BitVec.eq_of_getLsbD_eq
  intro i hi
  interval_cases i <;> simp [Status.word, bit_eq]

theorem status_word_errCtx (st : Status) : st.word.extractLsb' 8 2 = errCtxBits st.errCtx := by
  apply BitVec.eq_of_getLsbD_eq
  intro i hi
  interval_cases i <;> simp [Status.word, bit_eq]

theorem status_word_reserved (st : Status) :
    st.word.getLsbD 3 = false ∧ st.word.extractLsb' 10 6 = 0#6 ∧ st.word.extractLsb' 17 15 = 0#15 := by
  refine ⟨by simp [Status.word, bit_eq], ?_, ?_⟩ <;>
    (apply BitVec.eq_of_getLsbD_eq; intro i hi; interval_cases i <;> simp [Status.word, bit_eq])

/-- Settles O58: each field of STATUS is a part of the word, by the numbers of R128 and R129. -/
theorem statusWordLayout : Obligations.StatusWordLayout := by
  intro st
  obtain ⟨hbusy, hdone, herr, hviol⟩ := status_word_flags st
  refine ⟨hbusy, hdone, herr, hviol, fun n hn => ?_, fun n hn => ?_, status_word_reserved st⟩
  · rw [status_word_errCode]
    simp only [List.mem_cons, List.not_mem_nil, or_false, Prod.mk.injEq] at hn
    rcases hn with ⟨h, rfl⟩ | ⟨h, rfl⟩ | ⟨h, rfl⟩ | ⟨h, rfl⟩ | ⟨h, rfl⟩ | ⟨h, rfl⟩ | ⟨h, rfl⟩ <;> rw [h] <;> rfl
  · rw [status_word_errCtx]
    simp only [List.mem_cons, List.not_mem_nil, or_false, Prod.mk.injEq] at hn
    rcases hn with ⟨h, rfl⟩ | ⟨h, rfl⟩ | ⟨h, rfl⟩ <;> rw [h] <;> rfl

/-! ### A tag register -/

theorem tagReg_word_vid (t : TagReg) : t.word.extractLsb' 0 16 = t.vid := by
  apply BitVec.eq_of_getLsbD_eq
  intro i hi
  interval_cases i <;> simp [TagReg.word, bit_eq]

theorem tagReg_word_pcp (t : TagReg) : t.word.extractLsb' 16 3 = t.pcp := by
  apply BitVec.eq_of_getLsbD_eq
  intro i hi
  interval_cases i <;> simp [TagReg.word, bit_eq]

theorem tagReg_word_reserved (t : TagReg) : t.word.extractLsb' 20 11 = 0#11 := by
  apply BitVec.eq_of_getLsbD_eq
  intro i hi
  interval_cases i <;> simp [TagReg.word, bit_eq]

theorem tagReg_word_flags (t : TagReg) : t.word.getLsbD 19 = t.dei ∧ t.word.getLsbD 31 = t.present := by
  simp [TagReg.word, bit_eq]

end Sys2Proof.Machine
end

section
/-! SUPPORT. What the host's register accesses return and write (10_state.md R18 to R32; 20_memory.md R51, R58). -/

namespace Sys2Proof.Machine

/-- A write to a register commands do not read or write, and which does not issue one, is accepted in every state (R58 (c)). -/
theorem busOp_regWrite_accepted {off : Nat} {r : Reg} (hoff : regAt off = some r) (hr : r.isOperand = false)
    (hcmd : r ≠ .cmd) (v : Word) (s : State) :
    busOp (.regWrite off v) s = .next { r.store v s with reply := .none } := by
  simp [busOp_regWrite off v r s hoff, writeReg, hr, hcmd]

/-- A read of a register commands do not read or write returns its value in every state (R58 (c)). -/
theorem busOp_regRead_value {off : Nat} {r : Reg} (hoff : regAt off = some r) (hr : r.isOperand = false) (s : State) :
    busOp (.regRead off) s = .next { s with reply := .word (r.value s) } := by
  simp [busOp_regRead off r s hoff, readReg, hr]

/-- Settles O45: a write to STATUS is accepted in every state. -/
theorem statusWriteOneToClear : Obligations.StatusWriteOneToClear := by
  intro s v
  have hclear : ∀ flag written : Bool, (flag && !written) = if written then false else flag := by decide
  rw [busOp_regWrite_accepted (r := .status) rfl rfl nofun, ← hclear, ← hclear]
  rfl

/-! ### Reads while idle -/

/-- With BUSY = 0 a register read returns the register's value (R51). -/
theorem busOp_regRead_idle {off : Nat} {r : Reg} {s : State} {w : Word} (hoff : regAt off = some r)
    (hidle : s.status.busy = false) (hvalue : r.value s = w) :
    busOp (.regRead off) s = .next { s with reply := .word w } := by
  rw [busOp_regRead off r s hoff, readReg_idle r s hidle, hvalue]

/-- With BUSY = 0 a read below BUF_CAP of a byte nothing has written draws a free value (R150, U3). -/
theorem busOp_bufRead_unwritten {s : State} {b : Buf} {i : Nat} (hidle : s.status.busy = false) (hi : i < s.cap.n)
    (hread : Memory.read (s.buf b) i = none) :
    busOp (.bufRead b i) s = .next { s with reply := .byte (Config.freeByte s.draws), draws := s.draws + 1 } := by
  have hrange : i ≤ 65535 := by have := s.cap.hi; omega
  simp [busOp, indexOk, hrange, readBuf, Nat.not_le.2 hi, hidle, hread]

/-- Settles O59: a register returns its value, which for each kind of register is its fields. -/
theorem hostReadsWhenIdle : Obligations.HostReadsWhenIdle := by
  intro s hidle
  refine ⟨busOp_regRead_idle rfl hidle rfl, fun off v h => ?_, fun off v h => ?_, fun off t h => ?_,
    fun b i hi => ⟨fun x hx => busOp_bufRead_idle s b i x hidle hi hx, busOp_bufRead_unwritten hidle hi⟩⟩ <;>
    simp only [List.mem_cons, List.not_mem_nil, or_false, Prod.mk.injEq] at h
  · rcases h with ⟨rfl, rfl⟩ | ⟨rfl, rfl⟩ | ⟨rfl, rfl⟩ | ⟨rfl, rfl⟩ | ⟨rfl, rfl⟩ <;> exact busOp_regRead_idle rfl hidle rfl
  · rcases h with ⟨rfl, rfl⟩ | ⟨rfl, rfl⟩ <;> exact busOp_regRead_idle rfl hidle rfl
  · have hread : busOp (.regRead off) s = .next { s with reply := .word t.word } := by
      rcases h with ⟨rfl, rfl⟩ | ⟨rfl, rfl⟩ <;> exact busOp_regRead_idle rfl hidle rfl
    obtain ⟨hdei, hpresent⟩ := tagReg_word_flags t
    exact ⟨t.word, hread, tagReg_word_vid t, tagReg_word_pcp t, hdei, tagReg_word_reserved t, hpresent⟩

/-! ### A write read back -/

/-- The bits a register stores of what is written to it: its fields, without its reserved bits (R18). CMD, STATUS, CAPS
and the unmapped offsets store nothing as written. -/
def Reg.fieldMask (r : Reg) : Word :=
  match r with
  | .irqEn => 0x00000001
  | .wlen | .plen | .dstHi | .srcHi | .etype => 0x0000FFFF
  | .dstLo | .srcLo => 0xFFFFFFFF
  | .ctag | .stag => 0x800FFFFF
  | .cmd | .status | .caps | .unmapped => 0

/-- An operand register or IRQ_EN reads as the written value, its reserved bits 0 (R18, R21 to R32). -/
theorem value_store_self (r : Reg) (v : Word) (s : State) (hr : r.isOperand = true ∨ r = .irqEn) :
    r.value (r.store v s) = v &&& r.fieldMask := by
  cases r
  case cmd | status | caps | unmapped => simp [Reg.isOperand] at hr
  case irqEn => exact bit_getLsbD_zero v
  case wlen | plen | dstHi | srcHi | etype => exact low_half v
  case dstLo | srcLo => exact (BitVec.and_allOnes (x := v)).symm
  case ctag | stag => exact tagReg_word_ofWord v

/-- A write to an operand register or IRQ_EN leaves STATUS, PENDING and the buffers. -/
theorem store_frame (r : Reg) (v : Word) (s : State) (hr : r.isOperand = true ∨ r = .irqEn) :
    (r.store v s).wbuf = s.wbuf ∧ (r.store v s).pbuf = s.pbuf ∧ (r.store v s).pending = s.pending ∧
      (r.store v s).status = s.status := by
  cases r
  case cmd | status => simp [Reg.isOperand] at hr
  all_goals exact ⟨rfl, rfl, rfl, rfl⟩

/-- The result of the last operation is no part of what a register reads as (log entry 7). -/
theorem value_reply (r : Reg) (s : State) (x : Reply) : r.value { s with reply := x } = r.value s := by cases r <;> rfl

/-- Settles O42: CMD, CAPS and STATUS are read in every state; every other register keeps the fields written to it. -/
theorem registerReadsBackItsFields : Obligations.RegisterReadsBackItsFields := by
  intro s v
  refine ⟨busOp_regRead_value (r := .cmd) rfl rfl s, busOp_regRead_value (r := .caps) rfl rfl s,
    busOp_regRead_value (r := .status) rfl rfl s, fun hidle off mask h => ?_⟩
  obtain ⟨r, hoff, hr, rfl⟩ : ∃ r, regAt off = some r ∧ (r.isOperand = true ∨ r = .irqEn) ∧ mask = r.fieldMask := by
    simp only [List.mem_cons, List.not_mem_nil, or_false, Prod.mk.injEq] at h
    rcases h with ⟨rfl, rfl⟩ | ⟨rfl, rfl⟩ | ⟨rfl, rfl⟩ | ⟨rfl, rfl⟩ | ⟨rfl, rfl⟩ | ⟨rfl, rfl⟩ | ⟨rfl, rfl⟩ | ⟨rfl, rfl⟩ |
      ⟨rfl, rfl⟩ | ⟨rfl, rfl⟩ <;> exact ⟨_, rfl, by decide, rfl⟩
  obtain ⟨-, -, -, hstatus⟩ := store_frame r v s hr
  refine ⟨{ r.store v s with reply := .none }, ?_, ?_, fun other r' hother hne => ?_, store_frame r v s hr⟩
  · rw [busOp_regWrite off v r s hoff, writeReg_idle r v s hidle]
  · refine busOp_regRead_idle hoff (by simpa [hstatus] using hidle) ?_
    rw [value_reply, value_store_self r v s hr]
  · have hne' : r' ≠ r := by
      rintro rfl
      have hmapped : r' ≠ .unmapped := by rintro rfl; simp [Reg.isOperand] at hr
      exact hne (regAt_inj other off r' hother hoff hmapped)
    rw [value_reply, value_store_of_ne s v r r' hne' hr]

end Sys2Proof.Machine
end

section
/-! SUPPORT. The interrupt output and VIOL through each step (10_state.md R20, R36; 70_reset_and_hazards.md R156). -/

namespace Sys2Proof.Machine

/-! ### irq -/

/-- What a completion does to the flags outside the error report: DONE is set, VIOL and DONE_IE stay (R119, R130). -/
theorem Completed.flags {i : Instr} {s t : State} (h : Completed i s t) :
    t.status.done = true ∧ t.status.viol = s.status.viol ∧ t.irqEn = s.irqEn := by
  cases h <;> exact ⟨rfl, rfl, rfl⟩

/-- What an engine step of a command in progress does to the same flags. -/
theorem engineCommand_flags {s t : State} (h : engineCommand s = .next t) :
    t.status.done = true ∧ t.status.viol = s.status.viol ∧ t.irqEn = s.irqEn := by
  obtain ⟨i, -, hdone⟩ | ⟨-, rfl⟩ := engineCommand_cases s t h
  · exact hdone.flags
  · exact ⟨rfl, rfl, rfl⟩

/-- Settles O37: a completion sets DONE, an issue and a written 1 clear it, and IRQ_EN takes the written bit. -/
theorem interruptFollowsCompletion : Obligations.InterruptFollowsCompletion := by
  intro s
  refine ⟨rfl, fun t hinv hbusy h => ?_, fun t v hidle h => ?_, fun t v hbit h => ?_, fun t v hbit h => ?_⟩
  · rw [engineStep, if_pos hbusy] at h
    obtain ⟨hdone, -, hen⟩ := engineCommand_flags h
    obtain ⟨hnot, -⟩ := hinv.status.busy_clears hbusy
    exact ⟨by simp [State.irq, hnot], by simp [State.irq, hdone, hen]⟩
  · rw [busOp_regWrite 0x00 v .cmd s rfl, writeReg_idle _ _ _ hidle] at h
    cases h
    rfl
  · rw [busOp_regWrite_accepted (r := .status) rfl rfl nofun] at h
    cases h
    simp [State.irq, Reg.store, hbit]
  · rw [busOp_regWrite_accepted (r := .irqEn) rfl rfl nofun] at h
    cases h
    show (s.status.done && v.getLsbD 0) = false
    rw [hbit, Bool.and_false]

/-! ### VIOL -/

/-- The writes the host makes that are dropped, and set VIOL, in a state `s` (R57, R58 (a)). -/
def BusOp.dropped (o : BusOp) (s : State) : Prop :=
  (∃ b i x, o = .bufWrite b i x ∧ (s.status.busy = true ∨ s.cap.n ≤ i)) ∨
  (∃ off v, o = .regWrite off v ∧ s.status.busy = true ∧
    off ∈ [0x00, 0x10, 0x14, 0x18, 0x1C, 0x20, 0x24, 0x28, 0x2C, 0x30])

/-- The offsets of CMD and of the OPSTATE registers. -/
theorem regAt_cmd_or_operand {off : Nat} {r : Reg} (h : regAt off = some r) (hr : r.isOperand = true ∨ r = .cmd) :
    off ∈ [0x00, 0x10, 0x14, 0x18, 0x1C, 0x20, 0x24, 0x28, 0x2C, 0x30] := by
  have hne : r ≠ .unmapped := by rintro rfl; simp [Reg.isOperand] at hr
  rw [regAt_offset off r h hne]
  cases r
  case status | irqEn | caps | unmapped => simp [Reg.isOperand] at hr
  all_goals simp [Reg.offset]

/-- What a bus operation does to VIOL: a dropped write sets it, a write of STATUS with bit 16 set clears it, and every
other operation leaves it. -/
theorem BusStep.viol {s t : State} {o : BusOp} (h : BusStep s o t) :
    (o.dropped s ∧ t.status.viol = true) ∨
    (∃ v, o = .regWrite 0x04 v ∧ t.status.viol = (s.status.viol && !v.getLsbD 16)) ∨
    t.status.viol = s.status.viol := by
  cases h with
  | read => exact .inr (.inr rfl)
  | dropReg off v r hr hb ho => exact .inl ⟨.inr ⟨off, v, rfl, hb, regAt_cmd_or_operand hr ho⟩, rfl⟩
  | dropBuf b i x hb => exact .inl ⟨.inl ⟨b, i, x, rfl, hb⟩, rfl⟩
  | store off v r hr =>
    cases r
    case status => exact .inr (.inl ⟨v, by rw [regAt_offset off .status hr nofun]; rfl, rfl⟩)
    all_goals exact .inr (.inr rfl)
  | write b i x => cases b <;> exact .inr (.inr rfl)

/-- What a step other than reset does to VIOL: it keeps it, unless the host's next statement is a bus operation that is
dropped or that clears it. -/
theorem step_viol {s t : State} (h : step s = .next t) (hreset : ∀ ts, s.turns ≠ .reset :: ts) :
    t.status.viol = s.status.viol ∨ ∃ o rest, s.host = .op o :: rest ∧
      ((o.dropped s ∧ t.status.viol = true) ∨
        ∃ v, o = .regWrite 0x04 v ∧ t.status.viol = (s.status.viol && !v.getLsbD 16)) := by
  obtain ⟨ts, -, ⟨hhost, -⟩ | ⟨-, hengine, -⟩ | ⟨-, -, rfl⟩ | ⟨hts, -⟩⟩ := step_cases s t h
  · cases hhost with
    | idle => exact .inl rfl
    | poll => exact .inl rfl
    | op o rest ho _ hbus =>
      obtain hdrop | hclear | hkeep := hbus.viol
      · exact .inr ⟨o, rest, ho, .inl hdrop⟩
      · exact .inr ⟨o, rest, ho, .inr hclear⟩
      · exact .inl hkeep
  · obtain ⟨-, hviol, -⟩ := engineCommand_flags hengine
    exact .inl hviol
  · exact .inl rfl
  · exact absurd hts (hreset ts)

/-- A reset step clears VIOL (R148). -/
theorem viol_of_reset {s t : State} (h : step s = .next t) {ts : List Turn} (hts : s.turns = .reset :: ts) :
    t.status.viol = false := by
  rw [step, takeTurn, hts] at h
  cases h
  rfl

/-- Settles O56: by what a step does to VIOL. -/
theorem violationRecordIsSticky : Obligations.ViolationRecordIsSticky := by
  intro s t h
  refine ⟨fun hviol hreset hclear => ?_, fun hviol hset => ?_⟩
  · obtain hkeep | ⟨o, rest, ho, ⟨-, hset⟩ | ⟨v, rfl, hv⟩⟩ := step_viol h hreset
    · rw [hkeep, hviol]
    · exact hset
    · rw [hv, hviol, hclear v rest ho]; rfl
  · have hreset : ∀ ts, s.turns ≠ .reset :: ts := fun ts hts => by simp [viol_of_reset h hts] at hset
    obtain hkeep | ⟨o, rest, ho, ⟨hdrop, -⟩ | ⟨v, -, hv⟩⟩ := step_viol h hreset
    · rw [hkeep, hviol] at hset; cases hset
    · exact ⟨o, rest, ho, hdrop⟩
    · rw [hv, hviol] at hset; cases hset

end Sys2Proof.Machine
end

section
/-! SUPPORT. What a command may write (20_memory.md R47; 30_encoding.md R80). -/

namespace Sys2Proof.Machine

/-- A length that BUF_CAP bounds is kept whole in a register's 16 bits. -/
theorem toNat_ofNat16_of_le_cap {n : Nat} {cap : BufCap} (h : n ≤ cap.n) : (BitVec.ofNat 16 n).toNat = n := by
  have hcap := cap.hi
  rw [BitVec.toNat_ofNat, Nat.mod_eq_of_lt (by omega)]

/-- A block write from index 0 leaves every byte at or above its end. -/
theorem read_writeBytes_of_length_le (m : Memory) (bs : List Byte) {k : Nat} (h : bs.length ≤ k) :
    Memory.read (Memory.writeBytes m 0 bs) k = Memory.read m k := by
  rw [read_writeBytes_zero, if_neg (Nat.not_lt.2 h)]

/-- The decodes leave WBUF and WLEN. -/
theorem Completed.wire_eq_of_decode {i : Instr} {s t : State} (h : Completed i s t) (hi : i = .tagDecode ∨ i = .frameDecode) :
    t.wbuf = s.wbuf ∧ t.wlen = s.wlen := by
  cases h with
  | error => exact ⟨rfl, rfl⟩
  | tagDecode => exact ⟨rfl, rfl⟩
  | tagEncode _ henc => subst henc; simp at hi
  | frameDecode => exact ⟨rfl, rfl⟩
  | frameEncode _ henc => subst henc; simp at hi

/-- Only FRAME_DECODE writes the fields of a decoded frame other than CTAG. -/
theorem Completed.frame_eq {i : Instr} {s t : State} (h : Completed i s t) (hi : i ≠ .frameDecode) :
    t.pbuf = s.pbuf ∧ t.plen = s.plen ∧ t.dstHi = s.dstHi ∧ t.dstLo = s.dstLo ∧ t.srcHi = s.srcHi ∧
      t.srcLo = s.srcLo ∧ t.etype = s.etype ∧ t.stag = s.stag := by
  cases h
  case frameDecode hdec _ _ _ => exact absurd hdec hi
  all_goals exact ⟨rfl, rfl, rfl, rfl, rfl, rfl, rfl, rfl⟩

/-- The encodes leave CTAG. -/
theorem Completed.ctag_eq_of_encode {i : Instr} {s t : State} (h : Completed i s t) (hi : i = .tagEncode ∨ i = .frameEncode) :
    t.ctag = s.ctag := by
  cases h with
  | error => rfl
  | tagDecode _ hdec => subst hdec; simp at hi
  | tagEncode => rfl
  | frameDecode _ hdec => subst hdec; simp at hi
  | frameEncode => rfl

/-- What is written to WBUF ends at the new WLEN. -/
theorem Completed.read_wbuf_of_wlen_le {i : Instr} {s t : State} (h : Completed i s t) {k : Nat} (hk : t.wlen.toNat ≤ k) :
    Memory.read t.wbuf k = Memory.read s.wbuf k := by
  cases h with
  | error => rfl
  | tagDecode => rfl
  | tagEncode bs _ hl => exact read_writeBytes_of_length_le _ _ (hl ▸ hk)
  | frameDecode => rfl
  | frameEncode out _ _ _ _ hcap => exact read_writeBytes_of_length_le _ _ (toNat_ofNat16_of_le_cap hcap ▸ hk)

/-- What is written to PBUF ends at the new PLEN. -/
theorem Completed.read_pbuf_of_plen_le {i : Instr} {s t : State} (h : Completed i s t) {k : Nat} (hk : t.plen.toNat ≤ k) :
    Memory.read t.pbuf k = Memory.read s.pbuf k := by
  cases h
  case frameDecode f _ hcap _ hl =>
    have hfits : f.payload.length ≤ s.cap.n := by omega
    exact read_writeBytes_of_length_le _ _ (toNat_ofNat16_of_le_cap hfits ▸ hk)
  all_goals rfl

/-- A completion changes OPSTATE and STATUS only. -/
theorem Completed.eq_of_opState_and_status {i : Instr} {s t : State} (h : Completed i s t) :
    t = { s with wlen := t.wlen, plen := t.plen, dstHi := t.dstHi, dstLo := t.dstLo, srcHi := t.srcHi, srcLo := t.srcLo,
                 etype := t.etype, ctag := t.ctag, stag := t.stag, wbuf := t.wbuf, pbuf := t.pbuf, status := t.status } := by
  cases h <;> rfl

/-- Settles O23: by what each completion writes. -/
theorem commandsWriteOnlyTheirRanges : Obligations.CommandsWriteOnlyTheirRanges := by
  intro i s t h
  have hdone := completed_of_exec i s t h
  exact ⟨hdone.wire_eq_of_decode, hdone.frame_eq, hdone.ctag_eq_of_encode, fun _ => hdone.read_wbuf_of_wlen_le,
    fun _ => hdone.read_pbuf_of_plen_le, hdone.eq_of_opState_and_status⟩

end Sys2Proof.Machine
end

section
/-! SUPPORT. The rules of the host's bus operations, in every state and while a command is in progress (20_memory.md R50 to
R58). -/

namespace Sys2Proof.Machine

/-! ### What is an operation -/

/-- A bus access that is one of the four operations is answered (R50). -/
theorem busOp_answered {o : BusOp} (h : o.wf = true) (s : State) : ∃ t, busOp o s = .next t := by
  cases o with
  | regRead off =>
    obtain ⟨r, hr⟩ := Option.isSome_iff_exists.1 ((regAt_isSome off).trans h)
    exact ⟨_, busOp_regRead off r s hr⟩
  | regWrite off v =>
    obtain ⟨r, hr⟩ := Option.isSome_iff_exists.1 ((regAt_isSome off).trans h)
    exact ⟨_, busOp_regWrite off v r s hr⟩
  | bufRead b i => exact ⟨_, if_pos h⟩
  | bufWrite b i x => exact ⟨_, if_pos h⟩
  | otherWidth sp bits => cases h

/-- An offset that is none of the interface holds no register (R50). -/
theorem regAt_eq_none {off : Nat} (h : offsetOk off = false) : regAt off = none :=
  Option.not_isSome_iff_eq_none.1 (by simp [regAt_isSome, h])

/-- A bus access that is none of the four operations is refused (R50, U10). -/
theorem busOp_refused {o : BusOp} (h : o.wf = false) (s : State) : ∃ r, busOp o s = .refused r := by
  cases o with
  | regRead off => exact ⟨.badRegisterOffset off, by simp only [busOp, regAt_eq_none h]⟩
  | regWrite off v => exact ⟨.badRegisterOffset off, by simp only [busOp, regAt_eq_none h]⟩
  | bufRead b i => exact ⟨.badBufferIndex b i, if_neg (Bool.eq_false_iff.1 h)⟩
  | bufWrite b i x => exact ⟨.badBufferIndex b i, if_neg (Bool.eq_false_iff.1 h)⟩
  | otherWidth sp bits => exact ⟨.badAccessWidth sp bits, rfl⟩

/-- Settles O38: by the two cases of an access. -/
theorem refusedExactlyWhenNotAnOperation : Obligations.RefusedExactlyWhenNotAnOperation :=
  fun _ s => ⟨fun h => busOp_answered h s, fun h => busOp_refused h s⟩

/-! ### Buffer accesses -/

theorem busOp_bufRead {i : Nat} (hi : i ≤ 65535) (b : Buf) (s : State) : busOp (.bufRead b i) s = .next (readBuf b i s) :=
  if_pos (decide_eq_true hi)

theorem busOp_bufWrite {i : Nat} (hi : i ≤ 65535) (b : Buf) (x : Byte) (s : State) :
    busOp (.bufWrite b i x) s = .next (writeBuf b i x s) :=
  if_pos (decide_eq_true hi)

/-- A buffer write while BUSY = 1, or at or above BUF_CAP, is dropped (R57, R58 (a)). -/
theorem busOp_bufWrite_dropped {i : Nat} {s : State} (hi : i ≤ 65535) (h : s.status.busy = true ∨ s.cap.n ≤ i) (b : Buf)
    (x : Byte) : busOp (.bufWrite b i x) s = .next (dropWrite s) := by
  rw [busOp_bufWrite hi, writeBuf, if_pos h]

/-- A buffer read at or above BUF_CAP returns 0 (R57). -/
theorem busOp_bufRead_above {i : Nat} {s : State} (hi : i ≤ 65535) (h : s.cap.n ≤ i) (b : Buf) :
    busOp (.bufRead b i) s = .next { s with reply := .byte 0 } := by
  rw [busOp_bufRead hi, readBuf, if_pos h]

/-- A buffer read below BUF_CAP while BUSY = 1 draws a free value (R58 (b)). -/
theorem busOp_bufRead_busy {i : Nat} {s : State} (hbusy : s.status.busy = true) (h : i < s.cap.n) (b : Buf) :
    busOp (.bufRead b i) s = .next { s with reply := .byte (Config.freeByte s.draws), draws := s.draws + 1 } := by
  have hcap := s.cap.hi
  rw [busOp_bufRead (by omega), readBuf, if_neg (by omega), if_pos hbusy]

/-- Settles O40: an index at or above BUF_CAP reads 0, and a write there is dropped. -/
theorem outOfRangeBufferIndex : Obligations.OutOfRangeBufferIndex :=
  fun _ b _ x hcap hi => ⟨busOp_bufRead_above hi hcap b, busOp_bufWrite_dropped hi (.inr hcap) b x⟩

/-- A read of either buffer after one byte of one of them is written: that byte, or what stood there before. -/
theorem read_setBuf_write (s : State) (b c : Buf) (i k : Nat) (x : Byte) :
    Memory.read ((s.setBuf b (Memory.write (s.buf b) i x)).buf c) k =
      if c = b ∧ k = i then some x else Memory.read (s.buf c) k := by
  by_cases hc : c = b
  · subst hc
    simp [read_write]
  · rw [setBuf_buf_of_ne _ _ _ _ hc, if_neg (fun h => hc h.1)]

/-- Replacing a buffer's contents changes nothing but the buffers. -/
theorem setBuf_eq (s : State) (b : Buf) (m : Memory) :
    s.setBuf b m = { s with wbuf := (s.setBuf b m).wbuf, pbuf := (s.setBuf b m).pbuf } := by
  cases b <;> rfl

/-- The result of the last operation is no part of the buffers (log entry 7). -/
theorem buf_reply (s : State) (r : Reply) (b : Buf) : ({ s with reply := r } : State).buf b = s.buf b := by cases b <;> rfl

/-- Settles O43: by a read of either buffer after one byte is written. -/
theorem bufferByteReadsBack : Obligations.BufferByteReadsBack := by
  intro s b i x hidle hi
  refine ⟨_, busOp_bufWrite_idle s b i x hidle hi, busOp_bufRead_idle _ b i x ?_ ?_ ?_, fun c k hne => ?_, ?_⟩
  · simpa using hidle
  · simpa using hi
  · rw [buf_reply, read_setBuf_write, if_pos ⟨rfl, rfl⟩]
  · rw [buf_reply, read_setBuf_write, if_neg (by tauto)]
  · exact congrArg (fun u : State => { u with reply := .none }) (setBuf_eq s b _)

/-! ### Register accesses -/

/-- A write to CMD or to an OPSTATE register while BUSY = 1 is dropped (R58 (a)). -/
theorem busOp_regWrite_dropped {off : Nat} {r : Reg} {s : State} (hoff : regAt off = some r)
    (hr : r.isOperand = true ∨ r = .cmd) (hbusy : s.status.busy = true) (v : Word) :
    busOp (.regWrite off v) s = .next (dropWrite s) := by
  rw [busOp_regWrite off v r s hoff, writeReg, if_pos ⟨hbusy, hr⟩]

/-- A read of an OPSTATE register while BUSY = 1 draws a free value (R58 (b)). -/
theorem busOp_regRead_busy {off : Nat} {r : Reg} {s : State} (hoff : regAt off = some r) (hr : r.isOperand = true)
    (hbusy : s.status.busy = true) :
    busOp (.regRead off) s = .next { s with reply := .word (Config.freeWord s.draws), draws := s.draws + 1 } := by
  rw [busOp_regRead off r s hoff, readReg, if_pos ⟨hbusy, hr⟩]

/-- The unmapped words and CAPS ignore a write (R56). -/
theorem store_eq_self {r : Reg} (hr : r = .unmapped ∨ r = .caps) (v : Word) (s : State) : r.store v s = s := by
  obtain rfl | rfl := hr <;> rfl

theorem regAt_unmapped : ∀ off ∈ [0x34, 0x38, 0x3C], regAt off = some .unmapped := by decide

theorem regAt_unmapped_or_caps :
    ∀ off ∈ [0x34, 0x38, 0x3C, 0x0C], ∃ r ∈ regAt off, r = .unmapped ∨ r = .caps := by decide

/-- Settles O41: these registers are accessible in every state, and a write stores nothing in them. -/
theorem unmappedAndReadOnlyRegisters : Obligations.UnmappedAndReadOnlyRegisters := by
  refine fun s v => ⟨fun off h => busOp_regRead_value (regAt_unmapped off h) rfl s, fun off h => ?_⟩
  obtain ⟨r, hoff, hr⟩ := regAt_unmapped_or_caps off h
  have hopen : r.isOperand = false ∧ r ≠ .cmd := by obtain rfl | rfl := hr <;> decide
  rw [busOp_regWrite_accepted hoff hopen.1 hopen.2, store_eq_self hr]

/-! ### Reads, and writes to WBUF -/

/-- A read changes the reply and the count of draws only (R55). -/
theorem BusStep.eq_of_read {s t : State} {o : BusOp} (h : BusStep s o t)
    (ho : (∃ off, o = .regRead off) ∨ ∃ b i, o = .bufRead b i) : t = { s with reply := t.reply, draws := t.draws } := by
  cases h
  case read => rfl
  all_goals simp at ho

/-- Settles O44: by what a read changes. -/
theorem readsHaveNoSideEffect : Obligations.ReadsHaveNoSideEffect := by
  intro s t off b i h
  obtain h | h := h
  · exact (busStep_of_busOp _ s t h).eq_of_read (.inl ⟨off, rfl⟩)
  · exact (busStep_of_busOp _ s t h).eq_of_read (.inr ⟨b, i, rfl⟩)

/-- Settles O46: a write to WBUF, dropped or not, leaves every field and buffer of the decoded frame. -/
theorem decodedFrameIndependentOfWire : Obligations.DecodedFrameIndependentOfWire := by
  intro s t i x h
  cases busStep_of_busOp _ s t h with
  | read _ _ _ ho => simp at ho
  | dropBuf => rfl
  | write => rfl

end Sys2Proof.Machine
end

section
/-! SUPPORT. What the host may do while a command is in progress (20_memory.md R58, R64). -/

namespace Sys2Proof.Machine

/-- An accepted write to a register outside OPSTATE leaves OPSTATE (R37). -/
theorem store_opState {r : Reg} (hr : r.isOperand = false) (v : Word) (s : State) : (r.store v s).opState = s.opState := by
  cases r
  case cmd | status | irqEn | caps | unmapped => rfl
  all_goals cases hr

/-- Only a write to CMD issues a command, or changes BUSY (R35, R117). -/
theorem store_pending_busy {r : Reg} (hr : r ≠ .cmd) (v : Word) (s : State) :
    (r.store v s).pending = s.pending ∧ (r.store v s).status.busy = s.status.busy := by
  cases r
  case cmd => contradiction
  all_goals exact ⟨rfl, rfl⟩

/-- The command in progress in `s` is still in progress in `t`, on the same OPSTATE and PENDING. -/
structure State.Frozen (s t : State) : Prop where
  opState : t.opState = s.opState
  pending : t.pending = s.pending
  busy    : t.status.busy = true

/-- While BUSY = 1 a bus operation leaves the command in progress as it was (R58). -/
theorem BusStep.frozen {s t : State} {o : BusOp} (h : BusStep s o t) (hbusy : s.status.busy = true) : s.Frozen t := by
  cases h with
  | read => exact ⟨rfl, rfl, hbusy⟩
  | dropReg => exact ⟨rfl, rfl, hbusy⟩
  | dropBuf => exact ⟨rfl, rfl, hbusy⟩
  | store off v r _ hopen =>
    obtain ⟨hoperand, hcmd⟩ := hopen hbusy
    obtain ⟨hpending, hkept⟩ := store_pending_busy hcmd v s
    exact ⟨store_opState hoperand v s, hpending, hkept.trans hbusy⟩
  | write _ _ _ hidle => rw [hbusy] at hidle; cases hidle

/-- While BUSY = 1 a host step leaves the command in progress as it was. -/
theorem HostDid.frozen {s t : State} (h : HostDid s t) (hbusy : s.status.busy = true) : s.Frozen t := by
  cases h with
  | idle => exact ⟨rfl, rfl, hbusy⟩
  | poll => exact ⟨rfl, rfl, hbusy⟩
  | op o rest _ _ hbus =>
    obtain ⟨hop, hpending, hkept⟩ := hbus.frozen hbusy
    exact ⟨hop, hpending, hkept⟩

/-- Settles O55: on the host's turn the step is a host step. -/
theorem opStateFrozenWhileBusy : Obligations.OpStateFrozenWhileBusy := by
  intro s t ts hbusy hturn h
  rw [step, takeTurn, hturn] at h
  obtain ⟨hop, hpending, hkept⟩ := (hostDid_of_hostStep _ t h).frozen hbusy
  exact ⟨hop, hpending, hkept⟩

/-! ### The offsets R58 names -/

theorem regAt_dropped_while_busy : ∀ off ∈ [0x00, 0x10, 0x14, 0x18, 0x1C, 0x20, 0x24, 0x28, 0x2C, 0x30],
    ∃ r ∈ regAt off, r.isOperand = true ∨ r = .cmd := by decide

theorem regAt_operand : ∀ off ∈ [0x10, 0x14, 0x18, 0x1C, 0x20, 0x24, 0x28, 0x2C, 0x30],
    ∃ r ∈ regAt off, r.isOperand = true := by decide

theorem regAt_open_while_busy : ∀ off ∈ [0x04, 0x08, 0x0C, 0x34, 0x38, 0x3C],
    ∃ r ∈ regAt off, r.isOperand = false ∧ r ≠ .cmd := by decide

/-- Settles O39: by the rule of each kind of access, and what a bus operation leaves while BUSY = 1. -/
theorem accessWhileBusy : Obligations.AccessWhileBusy := by
  intro s hbusy
  refine ⟨fun off v h => ?_, fun b i x hi => busOp_bufWrite_dropped hi (.inl hbusy) b x, fun off h => ?_,
    fun b i hi => busOp_bufRead_busy hbusy hi b, fun off h => ?_,
    fun o t h => ((busStep_of_busOp o s t h).frozen hbusy).opState⟩
  · obtain ⟨r, hoff, hr⟩ := regAt_dropped_while_busy off h
    exact busOp_regWrite_dropped hoff hr hbusy v
  · obtain ⟨r, hoff, hr⟩ := regAt_operand off h
    exact busOp_regRead_busy hoff hr hbusy
  · obtain ⟨r, hoff, hr, hcmd⟩ := regAt_open_while_busy off h
    exact ⟨r, hoff, busOp_regRead_value hoff hr s, fun v => busOp_regWrite_accepted hoff hr hcmd v s⟩

end Sys2Proof.Machine
end

section
/-! SUPPORT. Command words: which word each command has, and that a word has at most one (30_encoding.md R68 to R71). -/

namespace Sys2Proof

/-- The decoder accepts a word exactly when it is the command's own (R68, R69, R71). -/
theorem decodeCmd_eq_some_iff (w : Word) (i : Instr) : decodeCmd w = some i ↔ encode i = w := by
  constructor
  · intro h
    unfold decodeCmd at h
    split at h <;> cases h <;> rfl
  · rintro rfl
    cases i <;> rfl

/-- Settles O2: both directions are the decoder's one law. -/
theorem decodeAndEncodeAgree : Obligations.DecodeAndEncodeAgree :=
  ⟨fun i _ => (decodeCmd_eq_some_iff (encode i) i).2 rfl, fun w i => (decodeCmd_eq_some_iff w i).1⟩

/-- Settles O1: a word that decodes to a command is that command's, one of the four. -/
theorem decoderAcceptsExactlyTheFourWords : Obligations.DecoderAcceptsExactlyTheFourWords := by
  refine ⟨rfl, rfl, rfl, rfl, fun w h1 h2 h3 h4 => Option.eq_none_iff_forall_ne_some.2 fun i hi => ?_⟩
  have hw : encode i = w := (decodeCmd_eq_some_iff w i).1 hi
  cases i with
  | tagDecode => exact h1 hw.symm
  | tagEncode => exact h2 hw.symm
  | frameDecode => exact h3 hw.symm
  | frameEncode => exact h4 hw.symm

end Sys2Proof
end

section
/-! SUPPORT. What a whole command leaves when the bytes it reads are given (30_encoding.md R76 to R80). -/

namespace Sys2Proof.Machine

/-- A command that computes a value, with every byte it examines written, succeeds and puts the value in its place. -/
theorem exec_of_computed {i : Instr} {s : State} {r : Result i} (hr : computed i s = .ok r)
    (hwritten : ∀ k ∈ (examined i s).2, (Memory.read (s.buf (examined i s).1) k).isSome = true) :
    exec i s = .next (succeed (put i r s)) := by
  rw [exec_eq_examine, examine_of_defined _ _ _ _ hwritten, hr]
  rfl

@[simp] theorem length_hwAddr_bytes (a : HwAddr) : a.bytes.length = 6 := rfl

@[simp] theorem length_tagBody (p : BitVec 3) (d : Bool) (v : BitVec 12) : (tagBody p d v).length = 2 := rfl

/-! ### FRAME_DECODE -/

/-- FRAME_DECODE of a sequence in WBUF whose unwritten bytes, if any, are not examined. -/
theorem exec_frameDecode_of_holds {s : State} {b : List Byte} {skip : List Nat} {f : Frame}
    (hlen : s.wlen.toNat = b.length) (hcap : b.length ≤ s.cap.n) (hb : Memory.holds s.wbuf b skip)
    (hd : frameDecode (Memory.bytes s.wbuf 0 b.length) = .ok f)
    (hskip : ∀ k ∈ frameBytesExamined (Memory.bytes s.wbuf 0 b.length), k ∉ skip) :
    exec .frameDecode s = .next (succeed (writeFrame s f)) := by
  have hfits : ¬ s.cap.n < s.wlen.toNat := by omega
  refine exec_of_computed (i := .frameDecode) (r := f) ?_ fun k hk => ?_
  · rw [computed, if_neg hfits, hlen, hd]
  · rw [examined, if_neg hfits, hlen] at hk
    exact isSome_of_holds s.wbuf b skip hb k (by simpa using frameBytesExamined_lt _ _ hk) (hskip k hk)

/-- FRAME_DECODE of a sequence all of whose bytes have been written. -/
theorem exec_frameDecode_of_holds_all {s : State} {b : List Byte} {f : Frame} (hlen : s.wlen.toNat = b.length)
    (hcap : b.length ≤ s.cap.n) (hb : Memory.holds s.wbuf b []) (hd : frameDecode b = .ok f) :
    exec .frameDecode s = .next (succeed (writeFrame s f)) :=
  exec_frameDecode_of_holds hlen hcap hb ((bytes_of_holds s.wbuf b hb).symm ▸ hd) fun _ _ => List.not_mem_nil

/-- Settles O10: the sequence is an untagged layout, and the payload is the block written to PBUF. -/
theorem frameDecodeUntaggedResult : Obligations.FrameDecodeUntaggedResult := by
  rintro s dst src e0 e1 payload _ rfl hcustomer hservice hlen hcap hb
  exact ⟨_, exec_frameDecode_of_holds_all hlen hcap hb (frameDecode_untagged dst src e0 e1 payload hcustomer hservice),
    rfl, read_writeBytes_zero s.pbuf payload⟩

/-- Settles O11: the sequence is a single-tagged layout, whatever EtherType follows. -/
theorem frameDecodeSingleTaggedResult : Obligations.FrameDecodeSingleTaggedResult := by
  rintro s dst src pcp dei vid e0 e1 payload _ rfl hlen hcap hb
  exact ⟨_, exec_frameDecode_of_holds_all hlen hcap hb (frameDecode_single dst src pcp dei vid e0 e1 payload),
    rfl, read_writeBytes_zero s.pbuf payload⟩

/-- A buffer that holds a sequence but for a gap in its middle gives that sequence with other bytes in the gap. -/
theorem bytes_of_holds_outside_gap (m : Memory) (pre gap post : List Byte) {skip : List Nat}
    (h : Memory.holds m (pre ++ gap ++ post) skip)
    (hskip : ∀ i ∈ skip, pre.length ≤ i ∧ i < pre.length + gap.length) :
    Memory.bytes m 0 (pre ++ gap ++ post).length = pre ++ Memory.bytes m pre.length gap.length ++ post := by
  apply List.ext_getElem?
  intro i
  by_cases hgap : pre.length ≤ i ∧ i < pre.length + gap.length
  · rw [bytes_getElem?, List.getElem?_append_left (by simpa using hgap.2), List.getElem?_append_right hgap.1,
      bytes_getElem?, if_pos (by simp; omega), if_pos (by omega), Nat.zero_add, Nat.add_sub_cancel' hgap.1]
  · have hsame : (pre ++ Memory.bytes m pre.length gap.length ++ post)[i]? = (pre ++ gap ++ post)[i]? := by
      simp only [List.getElem?_append, List.length_append, bytes_length]
      split
      · rw [if_pos (by omega), if_pos (by omega)]
      · rfl
    rw [hsame, bytes_getElem?, Nat.zero_add]
    split
    · rename_i hi
      rw [h i hi fun hs => hgap (hskip i hs), List.getElem?_eq_getElem hi, Option.getD_some]
    · rename_i hi
      exact (List.getElem?_eq_none (Nat.not_lt.1 hi)).symm

/-- WBUF's bytes for a QinQ layout of which the inner TPID may be unwritten: the layout, with some inner TPID. -/
theorem exists_bytes_qinq {m : Memory} {dst src : HwAddr} {outer inner : List Byte} {z0 z1 e0 e1 : Byte}
    {payload b : List Byte} (houter : outer.length = 2)
    (hb : b = dst.bytes ++ src.bytes ++ [0x88, 0xA8] ++ outer ++ [z0, z1] ++ inner ++ [e0, e1] ++ payload)
    (h : Memory.holds m b [16, 17]) :
    ∃ y0 y1, Memory.bytes m 0 b.length =
      dst.bytes ++ src.bytes ++ [0x88, 0xA8] ++ (outer ++ [y0, y1] ++ inner ++ [e0, e1] ++ payload) := by
  have hsplit : b = (dst.bytes ++ src.bytes ++ [0x88, 0xA8] ++ outer) ++ [z0, z1] ++ (inner ++ [e0, e1] ++ payload) := by
    simp [hb]
  rw [hsplit] at h ⊢
  have hpre : (dst.bytes ++ src.bytes ++ [0x88, 0xA8] ++ outer).length = 16 := by simp [houter]
  obtain ⟨y0, y1, hgap⟩ : ∃ y0 y1, Memory.bytes m 16 [z0, z1].length = [y0, y1] := ⟨_, _, rfl⟩
  refine ⟨y0, y1, (bytes_of_holds_outside_gap m _ _ _ h (by simp [houter])).trans ?_⟩
  rw [hpre, hgap]
  simp

/-- FRAME_DECODE does not examine the inner TPID of a QinQ frame (R97, R99). -/
theorem not_mem_inner_tpid {b : List Byte} {k : Nat} (hservice : candidate b = tpidService)
    (hk : k ∈ frameBytesExamined b) : k ∉ [16, 17] := by
  obtain ⟨-, (rfl | rfl) | ⟨-, hinner⟩⟩ := mem_frameBytesExamined hk
  · decide
  · decide
  · simpa using (hinner hservice).2

/-- Settles O12: whatever stands at offset 16 the sequence is a QinQ layout, and those two bytes are not examined. -/
theorem frameDecodeQinQResult : Obligations.FrameDecodeQinQResult := by
  intro s dst src sp cp sd cd sv cv z0 z1 e0 e1 payload b hb hlen hcap hholds
  obtain ⟨y0, y1, hbytes⟩ := exists_bytes_qinq rfl hb hholds
  have hdecode := frameDecode_qinq dst src sp cp sd cd sv cv y0 y1 e0 e1 payload
  have hservice : candidate (Memory.bytes s.wbuf 0 b.length) = tpidService := by
    rw [hbytes, candidate_layout]
    decide
  rw [← hbytes] at hdecode
  exact ⟨_, exec_frameDecode_of_holds hlen hcap hholds hdecode fun _ hk => not_mem_inner_tpid hservice hk, rfl,
    read_writeBytes_zero s.pbuf payload⟩

/-! ### FRAME_ENCODE -/

/-- A tag register with PRESENT = 0 holds no tag, whatever its other fields are (R33). -/
theorem regTag_of_absent {t : TagReg} (h : t.present = false) : regTag t = none := by simp [regTag, h]

theorem regTag_presentTag (p : BitVec 3) (d : Bool) (v : BitVec 12) :
    regTag (presentTag p d v) = some { pcp := p, dei := d, vid := v.setWidth 16 } := rfl

theorem presentTag_valid (p : BitVec 3) (d : Bool) (v : BitVec 12) : (presentTag p d v).vid.toNat ≤ 4095 :=
  Nat.not_lt.1 (vid12_valid v)

/-- The frame the registers hold, its fields given as bytes (R33). -/
theorem regFrame_eq {s : State} {dst src : HwAddr} {e : Half} {payload : List Byte} (hdstHi : s.dstHi = dst.hi)
    (hdstLo : s.dstLo = dst.lo) (hsrcHi : s.srcHi = src.hi) (hsrcLo : s.srcLo = src.lo) (hetype : s.etype = e)
    (hplen : s.plen.toNat = payload.length) (hpayload : Memory.holds s.pbuf payload []) :
    regFrame s =
      { dst := dst, src := src, ctag := regTag s.ctag, stag := regTag s.stag, etype := e, payload := payload } := by
  rw [regFrame, hdstHi, hdstLo, hsrcHi, hsrcLo, hetype, hplen, bytes_of_holds s.pbuf payload hpayload, regAddr_pack,
    regAddr_pack]

/-- FRAME_ENCODE of an encodable frame whose payload has been written: WBUF takes the encoded bytes, WLEN their number. -/
theorem exec_frameEncode_of_encodable {s : State} {payload out : List Byte} (hplen : s.plen.toNat = payload.length)
    (hpayload : Memory.holds s.pbuf payload []) (hok : s.encodable) (henc : frameEncode (regFrame s) = .ok out) :
    ∃ t, exec .frameEncode s = .next t ∧
      t = { s with wbuf := t.wbuf, wlen := BitVec.ofNat 16 out.length,
                   status := { s.status with busy := false, done := true } } ∧
      ∀ i, Memory.read t.wbuf i = if i < out.length then out[i]? else Memory.read s.wbuf i := by
  have hchecks : frameEncodeChecks s = .ok () := (frameEncodeChecks_ok_iff_encodable s).2 hok
  have hcomputed : computed .frameEncode s = .ok out := by
    rw [computed, hchecks]
    exact henc
  refine ⟨_, exec_of_computed hcomputed fun k hk => ?_, rfl, read_writeBytes_zero s.wbuf out⟩
  simp only [examined, hchecks, hplen, List.mem_range] at hk
  exact isSome_of_holds s.pbuf payload [] hpayload k hk List.not_mem_nil

/-- Settles O14: absent tags are not checked and add nothing to the frame. -/
theorem frameEncodeUntaggedResult : Obligations.FrameEncodeUntaggedResult := by
  intro s dst src e0 e1 payload out hdstHi hdstLo hsrcHi hsrcLo hetype hctag hstag hplen hpayload hout hcap
  have hframe := regFrame_eq hdstHi hdstLo hsrcHi hsrcLo hetype hplen hpayload
  have hlen : out.length = 14 + payload.length := by simp [hout]; omega
  have hok : s.encodable := by
    rw [State.encodable, hctag, hstag, hplen]
    refine ⟨nofun, nofun, ?_⟩
    simp; omega
  refine exec_frameEncode_of_encodable hplen hpayload hok ?_
  rw [hframe, regTag_of_absent hctag, regTag_of_absent hstag, frameEncode_untagged, bytes16_be16, hout]

/-- Settles O15: a 12-bit VLAN ID passes the check, and its tag stands at offset 12. -/
theorem frameEncodeSingleTaggedResult : Obligations.FrameEncodeSingleTaggedResult := by
  intro s dst src pcp dei vid e0 e1 payload out hdstHi hdstLo hsrcHi hsrcLo hetype hctag hstag hplen hpayload hout hcap
  have hframe := regFrame_eq hdstHi hdstLo hsrcHi hsrcLo hetype hplen hpayload
  have hvid := presentTag_valid pcp dei vid
  have hlen : out.length = 18 + payload.length := by simp [hout]; omega
  have hok : s.encodable := by
    rw [State.encodable, hctag, hstag, hplen]
    refine ⟨nofun, fun _ => hvid, ?_⟩
    simp [presentTag]; omega
  refine exec_frameEncode_of_encodable hplen hpayload hok ?_
  rw [hframe, hctag, regTag_of_absent hstag, regTag_presentTag, frameEncode_single, tagEncode_vid12, bytes16_be16, hout]
  simp [Except.map]

/-- Settles O16: both tags pass the check, and the service tag is encoded first. -/
theorem frameEncodeQinQResult : Obligations.FrameEncodeQinQResult := by
  intro s dst src sp cp sd cd sv cv e0 e1 payload out hdstHi hdstLo hsrcHi hsrcLo hetype hctag hstag hplen hpayload hout hcap
  have hframe := regFrame_eq hdstHi hdstLo hsrcHi hsrcLo hetype hplen hpayload
  have hsvid := presentTag_valid sp sd sv
  have hcvid := presentTag_valid cp cd cv
  have hlen : out.length = 22 + payload.length := by simp [hout]; omega
  have hok : s.encodable := by
    rw [State.encodable, hctag, hstag, hplen]
    refine ⟨fun _ => ⟨rfl, hsvid⟩, fun _ => hcvid, ?_⟩
    simp [presentTag]; omega
  refine exec_frameEncode_of_encodable hplen hpayload hok ?_
  rw [hframe, hctag, hstag, regTag_presentTag, regTag_presentTag, frameEncode_qinq, tagEncode_vid12, tagEncode_vid12,
    bytes16_be16, hout]
  simp [Except.map, Except.bind]

end Sys2Proof.Machine
end

section
/-! SUPPORT. The host's lines as they run (30_encoding.md R81, R82). -/

namespace Sys2Proof.Machine

/-- Settles O47: a poll reads STATUS, whose bit 0 is BUSY. -/
theorem waitPollsUntilIdle : Obligations.WaitPollsUntilIdle := by
  intro s rest hhost
  refine ⟨fun hbusy => ?_, fun hidle => ?_, (status_word_flags s.status).1⟩
  · simp [hostStep, hhost, hbusy, readReg_status]
  · simp [hostStep, hhost, hidle, readReg_status]

/-- With no turn listed and BUSY = 0 the host's next bus operation is the step (R116; log entry 6). -/
theorem step_of_idle_op {s : State} {o : BusOp} {rest : List HostStmt} (hidle : s.status.busy = false)
    (hturns : s.turns = []) (hhost : s.host = .op o :: rest) : step s = busOp o { s with host := rest } := by
  simp [step, takeTurn, hostStep, hturns, hidle, hhost]

/-- The writes of a `wb` line, run one a step, are one block write (R82). -/
theorem run_expandBytes (b : Buf) (xs : List Byte) (rest : List HostStmt) (i : Nat) (s : State)
    (hidle : s.status.busy = false) (hturns : s.turns = []) (hhost : s.host = expandBytes b i xs ++ rest)
    (hcap : i + xs.length ≤ s.cap.n) :
    ∃ r, Host.Core.run core xs.length s =
      .next { s.setBuf b (Memory.writeBytes (s.buf b) i xs) with host := rest, reply := r } := by
  induction xs generalizing i s with
  | nil =>
    refine ⟨s.reply, ?_⟩
    obtain rfl : s.host = rest := hhost
    cases b <;> rfl
  | cons x xs ih =>
    rw [List.length_cons] at hcap ⊢
    have hwrite := busOp_bufWrite_idle { s with host := expandBytes b (i + 1) xs ++ rest } b i x hidle (by simp; omega)
    have hstep := (step_of_idle_op hidle hturns hhost).trans hwrite
    rw [run_succ _ _ _ hstep]
    refine (ih (i + 1) _ ?_ ?_ ?_ ?_).imp fun r hrun => hrun.trans ?_
    · simpa using hidle
    · simpa using hturns
    · simp
    · simp; omega
    · cases b <;> rfl

/-- The host's program and the last reply are no part of the buffers (log entries 6 and 7). -/
theorem buf_host_reply (s : State) (h : List HostStmt) (r : Reply) (b : Buf) :
    ({ s with host := h, reply := r } : State).buf b = s.buf b := by cases b <;> rfl

/-- Settles O48: by a read of either buffer after the block write. -/
theorem blockWriteLandsInOrder : Obligations.BlockWriteLandsInOrder := by
  intro s b i xs rest hidle hturns hhost hcap
  obtain ⟨r, hrun⟩ := run_expandBytes b xs rest i s hidle hturns hhost hcap
  refine ⟨_, hrun, rfl, fun k => ?_, fun c hc => ?_, by simp⟩
  · rw [buf_host_reply, setBuf_buf_self, read_writeBytes]
  · rw [buf_host_reply, setBuf_buf_of_ne s b c _ hc]

end Sys2Proof.Machine
end

section
/-! SUPPORT. The tag codec's laws, and its two commands on every input (40_vlan_tag_ops.md R87 to R92). -/

namespace Sys2Proof.Machine

/-! ### The codec -/

/-- A valid tag encodes to a tag body, which decodes to the tag in any context (R90 (a)). -/
theorem exists_tagEncode_and_tagDecode {t : VlanTag} (ht : t.valid) (ctx : ErrCtx) :
    ∃ b, tagEncode t ctx = .ok b ∧ tagDecode b ctx = .ok t := by
  obtain ⟨hinvalid, -⟩ | ⟨-, p, d, v, rfl, henc⟩ := tagEncode_cases t ctx
  · exact absurd ht (Nat.not_le.2 hinvalid)
  · exact ⟨tagBody p d v, henc, tagDecode_tagBody p d v ctx⟩

/-- What a valid tag encodes to decodes to that tag (R90 (a)). -/
theorem tagDecode_of_tagEncode {t : VlanTag} {b : List Byte} {ctx : ErrCtx} (ht : t.valid)
    (henc : tagEncode t ctx = .ok b) : tagDecode b ctx = .ok t := by
  obtain ⟨b', henc', hdec⟩ := exists_tagEncode_and_tagDecode ht ctx
  cases henc.symm.trans henc'
  exact hdec

/-- Settles O24: two bytes are a tag body, and another valid tag with that encoding would be what it decodes to. -/
theorem tagRoundTrips : Obligations.TagRoundTrips := by
  refine ⟨fun t ctx ht => exists_tagEncode_and_tagDecode ht ctx, fun b ctx hb => ?_⟩
  obtain ⟨p, d, v, rfl⟩ := exists_tagBody b hb
  have hdec := tagDecode_tagBody p d v ctx
  refine ⟨_, hdec, Nat.not_lt.1 (vid12_valid v), tagEncode_vid12 p d v ctx, fun u hu henc => ?_⟩
  exact Except.ok.inj ((tagDecode_of_tagEncode hu henc).symm.trans hdec)

/-- tagDecode fails exactly on a length other than 2, with MALFORMED_TAG in its context (R87, R89). -/
theorem tagDecode_eq_error_iff (b : List Byte) (ctx : ErrCtx) (e : CodecError) :
    tagDecode b ctx = .error e ↔ b.length ≠ 2 ∧ e = { code := .malformedTag, ctx := ctx } := by
  by_cases hb : b.length = 2
  · obtain ⟨p, d, v, rfl⟩ := exists_tagBody b hb
    simp [tagDecode_tagBody]
  · simp [tagDecode_of_length_ne b ctx hb, hb, eq_comm]

/-- Settles O25: a masked number is at most its mask. -/
theorem tagDecodeFailsOnlyOnLength : Obligations.TagDecodeFailsOnlyOnLength := by
  refine ⟨fun num => ?_, tagDecode_eq_error_iff⟩
  rw [BitVec.toNat_and]
  exact Nat.and_le_right

/-! ### The commands -/

/-- A command that computes an error, with every byte it examines written, completes with that error. -/
theorem exec_of_computed_error {i : Instr} {s : State} {e : CodecError} (he : computed i s = .error e)
    (hwritten : ∀ k ∈ (examined i s).2, (Memory.read (s.buf (examined i s).1) k).isSome = true) :
    exec i s = .next (raiseError s e) := by
  rw [exec_eq_examine, examine_of_defined _ _ _ _ hwritten, he]
  rfl

/-- Settles O6: two bytes fit every capacity, both are written, and they are the tag body. -/
theorem tagDecodeResult : Obligations.TagDecodeResult := by
  intro s pcp dei vid hwlen hbody
  have hlen : s.wlen.toNat = (tagBody pcp dei vid).length := by simp [hwlen]
  have hcap : ¬ s.cap.n < s.wlen.toNat := by
    have hmin := s.cap.lo
    simp [hwlen]; omega
  have hcomputed : computed .tagDecode s = .ok { pcp := pcp, dei := dei, vid := vid.setWidth 16 } := by
    rw [computed, if_neg hcap, hlen, bytes_of_holds s.wbuf _ hbody, tagDecode_tagBody]
  refine exec_of_computed hcomputed fun k hk => ?_
  rw [examined, if_neg hcap] at hk
  exact isSome_of_holds s.wbuf _ [] hbody k (hlen ▸ tagBytesExamined_lt _ _ hk) List.not_mem_nil

/-- Settles O7: neither a length above BUF_CAP nor a malformed tag has a byte examined. -/
theorem tagDecodeErrors : Obligations.TagDecodeErrors := by
  refine fun s => ⟨fun hover => ?_, fun hfits hne => ?_⟩
  · have hcomputed : computed .tagDecode s = .error ⟨.bufferOverflow, .none⟩ := if_pos hover
    refine exec_of_computed_error hcomputed fun k hk => ?_
    simp [examined, hover] at hk
  · have hcap : ¬ s.cap.n < s.wlen.toNat := Nat.not_lt.2 hfits
    have hlen : s.wlen.toNat ≠ 2 := fun h => hne (BitVec.eq_of_toNat_eq h)
    have hcomputed : computed .tagDecode s = .error ⟨.malformedTag, .none⟩ := by
      rw [computed, if_neg hcap, tagDecode_of_length_ne _ _ (by simpa using hlen)]
    refine exec_of_computed_error hcomputed fun k hk => ?_
    simp [examined, hcap, tagBytesExamined, hlen] at hk

/-- TAG_ENCODE examines no buffer byte (R92). -/
theorem examined_tagEncode (s : State) : (examined .tagEncode s).2 = [] := rfl

/-- Settles O8: the tag's fields do not include PRESENT, and its body is the block written to WBUF. -/
theorem tagEncodeResult : Obligations.TagEncodeResult := by
  intro s vid hvid
  have hcomputed : computed .tagEncode s = .ok (tagBody s.ctag.pcp s.ctag.dei vid) := by
    rw [computed, TagReg.tag, hvid, tagEncode_vid12]
  refine ⟨_, exec_of_computed hcomputed (by simp [examined_tagEncode]), rfl, ?_⟩
  exact read_writeBytes_zero s.wbuf (tagBody s.ctag.pcp s.ctag.dei vid)

/-- Settles O9: the check comes before any byte is packed. -/
theorem tagEncodeRejectsInvalidVid : Obligations.TagEncodeRejectsInvalidVid := by
  intro s hvid
  have hcomputed : computed .tagEncode s = .error ⟨.invalidVlanId, .none⟩ := tagEncode_invalid s.ctag.tag .none hvid
  exact exec_of_computed_error hcomputed (by simp [examined_tagEncode])

end Sys2Proof.Machine
end

section
/-! SUPPORT. The frame codec's laws (41_frame_ops.md R97 to R112): when each direction fails, the wire layout of an encoded
frame, and the two round trips. -/

namespace Sys2Proof.Machine

/-! ### When frameEncode fails -/

theorem except_map_eq_error_iff {ε α β : Type} {x : Except ε α} {g : α → β} {e : ε} :
    x.map g = .error e ↔ x = .error e := by
  cases x <;> simp [Except.map]

theorem except_bind_eq_error_iff {ε α β : Type} {x : Except ε α} {g : α → Except ε β} {e : ε} :
    x.bind g = .error e ↔ x = .error e ∨ ∃ a, x = .ok a ∧ g a = .error e := by
  cases x <;> simp [Except.bind]

/-- tagEncode fails exactly on a VLAN ID above 4095, with INVALID_VLAN_ID in its context (R88). -/
theorem tagEncode_eq_error_iff (t : VlanTag) (ctx : ErrCtx) (e : CodecError) :
    tagEncode t ctx = .error e ↔ 4095 < t.vid.toNat ∧ e = { code := .invalidVlanId, ctx := ctx } := by
  obtain ⟨hv, henc⟩ | ⟨hv, p, d, v, -, henc⟩ := tagEncode_cases t ctx
  · simp [henc, hv, eq_comm]
  · simp [henc, Nat.not_lt.2 hv]

/-- tagEncode succeeds exactly on a valid tag (R88). -/
theorem exists_tagEncode_eq_ok_iff (t : VlanTag) (ctx : ErrCtx) :
    (∃ b, tagEncode t ctx = .ok b) ↔ t.vid.toNat ≤ 4095 := by
  obtain ⟨hv, henc⟩ | ⟨hv, p, d, v, -, henc⟩ := tagEncode_cases t ctx
  · simp [henc, Nat.not_le.2 hv]
  · simp [henc, hv]

/-- Settles O27: by which tags are present, as each of the two is encoded in its turn. -/
theorem frameEncodeFailsExactly : Obligations.FrameEncodeFailsExactly := by
  rintro ⟨dst, src, ctag, stag, etype, payload⟩ e
  match ctag, stag with
  | none, none => simp [frameEncode_untagged]
  | none, some u =>
    rw [frameEncode_inconsistent _ u rfl rfl]
    simp [eq_comm]
  | some t, none => simp [frameEncode_single, except_map_eq_error_iff, tagEncode_eq_error_iff]
  | some t, some u =>
    simp only [frameEncode_qinq, except_bind_eq_error_iff, except_map_eq_error_iff, tagEncode_eq_error_iff,
      exists_and_right, exists_tagEncode_eq_ok_iff]
    simp

/-! ### The layout of an encoded frame -/

/-- A frame and its bytes on the wire, in the three shapes a frame can have (R76 to R78, R105). -/
inductive WireLayout : Frame → List Byte → Prop where
  | untagged (dst src : HwAddr) (etype : Half) (payload : List Byte) :
      WireLayout { dst := dst, src := src, ctag := none, stag := none, etype := etype, payload := payload }
        (dst.bytes ++ src.bytes ++ bytes16 etype ++ payload)
  | single (dst src : HwAddr) (p : BitVec 3) (d : Bool) (v : BitVec 12) (etype : Half) (payload : List Byte) :
      WireLayout { dst := dst, src := src, ctag := some { pcp := p, dei := d, vid := v.setWidth 16 }, stag := none,
                   etype := etype, payload := payload }
        (dst.bytes ++ src.bytes ++ [0x81, 0x00] ++ (tagBody p d v ++ bytes16 etype ++ payload))
  | qinq (dst src : HwAddr) (sp cp : BitVec 3) (sd cd : Bool) (sv cv : BitVec 12) (etype : Half) (payload : List Byte) :
      WireLayout { dst := dst, src := src, ctag := some { pcp := cp, dei := cd, vid := cv.setWidth 16 },
                   stag := some { pcp := sp, dei := sd, vid := sv.setWidth 16 }, etype := etype, payload := payload }
        (dst.bytes ++ src.bytes ++ [0x88, 0xA8] ++
          (tagBody sp sd sv ++ [0x81, 0x00] ++ tagBody cp cd cv ++ bytes16 etype ++ payload))

/-- A frame in one of the three shapes encodes to its layout. -/
theorem WireLayout.frameEncode_eq {f : Frame} {b : List Byte} (h : WireLayout f b) : frameEncode f = .ok b := by
  cases h with
  | untagged => exact frameEncode_untagged ..
  | single => rw [frameEncode_single, tagEncode_vid12]; rfl
  | qinq => rw [frameEncode_qinq, tagEncode_vid12, tagEncode_vid12]; rfl

/-- Every encoded frame has one of the three shapes. -/
theorem wireLayout_of_frameEncode {f : Frame} {b : List Byte} (h : frameEncode f = .ok b) : WireLayout f b := by
  obtain ⟨dst, src, ctag, stag, etype, payload⟩ := f
  match ctag, stag with
  | none, none =>
    rw [frameEncode_untagged] at h
    cases h
    exact .untagged ..
  | none, some u =>
    rw [frameEncode_inconsistent _ u rfl rfl] at h
    cases h
  | some t, none =>
    rw [frameEncode_single] at h
    obtain ⟨-, ht⟩ | ⟨-, p, d, v, rfl, ht⟩ := tagEncode_cases t .customer <;> rw [ht] at h <;> cases h
    exact .single ..
  | some t, some u =>
    rw [frameEncode_qinq] at h
    obtain ⟨-, hu⟩ | ⟨-, sp, sd, sv, rfl, hu⟩ := tagEncode_cases u .service
    · rw [hu] at h
      cases h
    obtain ⟨-, ht⟩ | ⟨-, cp, cd, cv, rfl, ht⟩ := tagEncode_cases t .customer <;> rw [hu, ht] at h <;> cases h
    exact .qinq ..

@[simp] theorem length_bytes16 (v : Half) : (bytes16 v).length = 2 := rfl

/-- Settles O28: by the three shapes of an encoded frame. -/
theorem encodedFrameLength : Obligations.EncodedFrameLength := by
  intro f b h
  cases wireLayout_of_frameEncode h <;> simp <;> omega

/-! ### Decoding what was encoded -/

/-- A layout decodes to its frame, but for an untagged one whose EtherType reads as a TPID (R111). -/
theorem WireLayout.frameDecode_eq {f : Frame} {b : List Byte} (h : WireLayout f b) (hm : ¬ f.masqueraded) :
    frameDecode b = .ok f := by
  cases h with
  | untagged dst src etype payload =>
    have hcustomer : etype ≠ tpidCustomer := fun he => hm ⟨rfl, rfl, .inl he⟩
    have hservice : etype ≠ tpidService := fun he => hm ⟨rfl, rfl, .inr he⟩
    rw [← be16_extract etype] at hcustomer hservice
    rw [bytes16, frameDecode_untagged _ _ _ _ _ hcustomer hservice, be16_extract]
  | single => rw [bytes16, frameDecode_single, be16_extract]
  | qinq => rw [bytes16, frameDecode_qinq, be16_extract]

/-- Whatever frameEncode answers decodes to the frame it was given, unless that frame is masqueraded (R111). -/
theorem frameDecode_of_frameEncode {f : Frame} {b : List Byte} (hm : ¬ f.masqueraded) (h : frameEncode f = .ok b) :
    frameDecode b = .ok f :=
  (wireLayout_of_frameEncode h).frameDecode_eq hm

/-- Settles O29: none of frameEncode's errors can occur, and what it answers decodes to the frame. -/
theorem frameRoundTrips : Obligations.FrameRoundTrips := by
  intro f htagged hctag hstag hm
  cases henc : frameEncode f with
  | ok b => exact ⟨b, rfl, frameDecode_of_frameEncode hm henc⟩
  | error e =>
    obtain ⟨hs, hc, -⟩ | ⟨-, ⟨t, ht, hv⟩, -⟩ | ⟨-, ⟨t, ht, hv⟩, -⟩ := (frameEncodeFailsExactly f e).1 henc
    · simpa [hc] using htagged (Option.isSome_iff_ne_none.2 hs)
    · exact absurd (hstag t ht) (Nat.not_le.2 hv)
    · exact absurd (hctag t ht) (Nat.not_le.2 hv)

/-! ### Encoding what was decoded -/

/-- Where the two TPIDs of a QinQ layout stand (R78). -/
theorem getElem?_qinq_tpids (dst src : HwAddr) (sp cp : BitVec 3) (sd cd : Bool) (sv cv : BitVec 12)
    (z0 z1 e0 e1 : Byte) (payload : List Byte) :
    let b := dst.bytes ++ src.bytes ++ [0x88, 0xA8] ++
      (tagBody sp sd sv ++ [z0, z1] ++ tagBody cp cd cv ++ [e0, e1] ++ payload)
    b[12]? = some 0x88 ∧ b[13]? = some 0xA8 ∧ b[16]? = some z0 ∧ b[17]? = some z1 :=
  ⟨rfl, rfl, rfl, rfl⟩

/-- Settles O30: by the layout decoded. A QinQ frame encodes to the layout with the standard inner TPID, which is the input
exactly when the input's is standard. -/
theorem reencodingReproducesInput : Obligations.ReencodingReproducesInput := by
  intro b f h
  rcases frameDecode_cases b with ⟨-, hd⟩ | ⟨_, _, _, -, -, hd⟩ | ⟨_, _, _, -, -, hd⟩ |
    ⟨dst, src, c0, c1, payload, rfl, -, hservice, hd⟩ | ⟨dst, src, p, d, v, e0, e1, payload, rfl, hd⟩ |
    ⟨dst, src, sp, sd, sv, z0, z1, cp, cd, cv, e0, e1, payload, rfl, hd⟩ <;> cases h.symm.trans hd
  · refine iff_of_true ?_ fun ⟨h12, h13, _⟩ => hservice ?_
    · rw [frameEncode_untagged, bytes16_be16]
    · obtain rfl : c0 = 0x88 := Option.some.inj h12
      obtain rfl : c1 = 0xA8 := Option.some.inj h13
      rfl
  · refine iff_of_true ?_ fun ⟨h12, _⟩ => absurd (Option.some.inj h12) (by decide)
    rw [(WireLayout.single ..).frameEncode_eq, bytes16_be16]
  · obtain ⟨h12, h13, h16, h17⟩ := getElem?_qinq_tpids dst src sp cp sd cd sv cv z0 z1 e0 e1 payload
    rw [(WireLayout.qinq ..).frameEncode_eq, bytes16_be16, h12, h13, h16, h17]
    simp [@eq_comm _ z0, @eq_comm _ z1]

end Sys2Proof.Machine
end

section
/-! SUPPORT. When frameDecode fails, and the errors of the two frame commands (41_frame_ops.md R98, R103, R106 to R110;
60_exceptions.md R137). -/

namespace Sys2Proof.Machine

/-! ### The codec -/

/-- A sequence whose bytes at offset 12 are known is two addresses, those bytes and a rest. -/
theorem exists_layout_of_candidate {b : List Byte} {c0 c1 : Byte} (h12 : b[12]? = some c0) (h13 : b[13]? = some c1) :
    ∃ (dst src : HwAddr) (rest : List Byte), b = dst.bytes ++ src.bytes ++ [c0, c1] ++ rest := by
  obtain ⟨hlen, -⟩ := List.getElem?_eq_some_iff.1 h13
  obtain ⟨dst, src, x, y, rest, rfl⟩ := exists_layout b hlen
  cases h12
  cases h13
  exact ⟨dst, src, rest, rfl⟩

/-- Settles O26: the three errors of the six cases of frameDecode, and back by the layout its bytes show. -/
theorem frameDecodeFailsExactlyWhenTooShort : Obligations.FrameDecodeFailsExactlyWhenTooShort := by
  refine fun b e => ⟨fun h => ?_, ?_⟩
  · rcases frameDecode_cases b with ⟨hlen, hd⟩ | ⟨dst, src, rest, rfl, hlen, hd⟩ | ⟨dst, src, rest, rfl, hlen, hd⟩ |
      ⟨_, _, _, _, _, -, -, -, hd⟩ | ⟨_, _, _, _, _, _, _, _, -, hd⟩ | ⟨_, _, _, _, _, _, _, _, _, _, _, _, _, -, hd⟩ <;>
    cases h.symm.trans hd
    · exact .inl ⟨hlen, rfl⟩
    · exact .inr (.inl ⟨by simp; omega, by simp; omega, rfl, rfl, rfl⟩)
    · exact .inr (.inr ⟨by simp; omega, by simp; omega, rfl, rfl, rfl⟩)
  · rintro (⟨hlen, rfl⟩ | ⟨-, hlen, h12, h13, rfl⟩ | ⟨-, hlen, h12, h13, rfl⟩)
    · exact frameDecode_short b hlen
    · obtain ⟨dst, src, rest, rfl⟩ := exists_layout_of_candidate h12 h13
      exact frameDecode_single_short dst src rest (by simp at hlen; omega)
    · obtain ⟨dst, src, rest, rfl⟩ := exists_layout_of_candidate h12 h13
      exact frameDecode_qinq_short dst src rest (by simp at hlen; omega)

/-! ### FRAME_DECODE -/

/-- Of a sequence that does not decode, FRAME_DECODE examines at most the TPID (R98; log entry 4). -/
theorem mem_frameBytesExamined_of_error {b : List Byte} {e : CodecError} (he : frameDecode b = .error e) {k : Nat}
    (hk : k ∈ frameBytesExamined b) : 14 ≤ b.length ∧ (k = 12 ∨ k = 13) := by
  obtain ⟨hlen, htpid | ⟨hcustomer, hservice⟩⟩ := mem_frameBytesExamined hk
  · exact ⟨hlen, htpid⟩
  obtain ⟨hshort, -⟩ | ⟨-, hshort, h12, h13, -⟩ | ⟨-, hshort, h12, h13, -⟩ :=
    (frameDecodeFailsExactlyWhenTooShort b e).1 he
  · omega
  · obtain ⟨dst, src, rest, rfl⟩ := exists_layout_of_candidate h12 h13
    exact absurd (hcustomer (candidate_layout ..)) (Nat.not_le.2 hshort)
  · obtain ⟨dst, src, rest, rfl⟩ := exists_layout_of_candidate h12 h13
    exact absurd (hservice (candidate_layout ..)).1 (Nat.not_le.2 hshort)

/-- FRAME_DECODE of a sequence that does not decode, with its TPID written if it is long enough to have one. -/
theorem exec_frameDecode_error {s : State} {e : CodecError} (hcap : s.wlen.toNat ≤ s.cap.n)
    (htpid : 14 ≤ s.wlen.toNat → (Memory.read s.wbuf 12).isSome = true ∧ (Memory.read s.wbuf 13).isSome = true)
    (he : frameDecode (Memory.bytes s.wbuf 0 s.wlen.toNat) = .error e) : exec .frameDecode s = .next (raiseError s e) := by
  have hfits : ¬ s.cap.n < s.wlen.toNat := Nat.not_lt.2 hcap
  refine exec_of_computed_error (i := .frameDecode) ((if_neg hfits).trans he) fun k hk => ?_
  rw [examined, if_neg hfits] at hk
  obtain ⟨hlen, hk⟩ := mem_frameBytesExamined_of_error he hk
  obtain ⟨h12, h13⟩ := htpid (by simpa using hlen)
  obtain rfl | rfl := hk
  · exact h12
  · exact h13

/-- FRAME_DECODE with two bytes written at offset 12, where every sequence of length WLEN with those bytes fails alike: the
other bytes need not have been written (log entry 4). -/
theorem exec_frameDecode_error_of_tpid {s : State} {x y : Byte} {e : CodecError} (hcap : s.wlen.toNat ≤ s.cap.n)
    (hlen : 14 ≤ s.wlen.toNat) (hx : Memory.read s.wbuf 12 = some x) (hy : Memory.read s.wbuf 13 = some y)
    (he : ∀ b : List Byte, b.length = s.wlen.toNat → b[12]? = some x → b[13]? = some y → frameDecode b = .error e) :
    exec .frameDecode s = .next (raiseError s e) := by
  refine exec_frameDecode_error hcap (fun _ => by simp [hx, hy]) (he _ (bytes_length ..) ?_ ?_)
  · exact bytes_getElem?_of_read s.wbuf _ 12 x (by omega) hx
  · exact bytes_getElem?_of_read s.wbuf _ 13 y (by omega) hy

/-- Settles O13: the capacity check comes first, then frameDecode's own errors, which need the TPID at most. -/
theorem frameDecodeErrors : Obligations.FrameDecodeErrors := by
  intro s
  have hfail := fun b e => (frameDecodeFailsExactlyWhenTooShort b e).2
  refine ⟨fun hover => ?_, fun hcap hshort => ?_, fun hcap hlen hshort hx hy => ?_, fun hcap hlen hshort hx hy => ?_⟩
  · have hcomputed : computed .frameDecode s = .error ⟨.bufferOverflow, .none⟩ := if_pos hover
    exact exec_of_computed_error hcomputed (by simp [examined, hover])
  · exact exec_frameDecode_error hcap (fun hlen => absurd hlen (Nat.not_le.2 hshort))
      (hfail _ _ (.inl ⟨by simpa using hshort, rfl⟩))
  · refine exec_frameDecode_error_of_tpid (e := ⟨.frameTooShort, .customer⟩) hcap hlen hx hy fun b hb h12 h13 => ?_
    exact hfail _ _ (.inr (.inl ⟨hb ▸ hlen, hb ▸ hshort, h12, h13, rfl⟩))
  · refine exec_frameDecode_error_of_tpid (e := ⟨.frameTooShort, .service⟩) hcap hlen hx hy fun b hb h12 h13 => ?_
    exact hfail _ _ (.inr (.inr ⟨hb ▸ hlen, hb ▸ hshort, h12, h13, rfl⟩))

/-! ### FRAME_ENCODE -/

/-- FRAME_ENCODE of registers that fail a check: no buffer byte is examined (R110). -/
theorem exec_frameEncode_error {s : State} {e : CodecError} (he : frameEncodeChecks s = .error e) :
    exec .frameEncode s = .next (raiseError s e) := by
  rw [exec, execFrameEncode, he]

/-- Settles O17: the checks in their order. -/
theorem frameEncodeErrors : Obligations.FrameEncodeErrors := by
  refine fun s => ⟨fun hs hc => ?_, fun hs hc hv => ?_, fun hs hc hv => ?_, fun hs hc hover => ?_⟩
  · have hchecks : frameEncodeChecks s = .error ⟨.inconsistentTagging, .none⟩ := by simp [frameEncodeChecks, hs, hc]
    exact exec_frameEncode_error hchecks
  · have hchecks : frameEncodeChecks s = .error ⟨.invalidVlanId, .service⟩ := by simp [frameEncodeChecks, hs, hc, hv]
    exact exec_frameEncode_error hchecks
  · have hchecks : frameEncodeChecks s = .error ⟨.invalidVlanId, .customer⟩ := by
      rw [frameEncodeChecks, if_neg (by simp [hc]), if_neg (fun h => absurd (hs h.1) (Nat.not_le.2 h.2)),
        if_pos ⟨hc, hv⟩]
    exact exec_frameEncode_error hchecks
  · have hchecks : frameEncodeChecks s = .error ⟨.bufferOverflow, .none⟩ := by
      rw [frameEncodeChecks, if_neg (fun h => h.2 (hs h.1).1), if_neg (fun h => absurd (hs h.1).2 (Nat.not_le.2 h.2)),
        if_neg (fun h => absurd (hc h.1) (Nat.not_le.2 h.2)), if_pos (regFrameLength_eq s ▸ hover)]
    exact exec_frameEncode_error hchecks

end Sys2Proof.Machine
end

section
/-! SUPPORT. The round trip of a frame through WBUF (41_frame_ops.md R111; 10_state.md R33, R34). -/

namespace Sys2Proof.Machine

/-- An address register's two bytes give it back (R25, R27). -/
theorem hi_regAddr (hi : Half) (lo : Word) : (regAddr hi lo).hi = hi := be16_extract hi

/-- The four bytes of the low address register give it back (R26, R28). -/
theorem lo_regAddr (hi : Half) (lo : Word) : (regAddr hi lo).lo = lo := by
  apply BitVec.eq_of_getLsbD_eq
  intro i hi
  interval_cases i <;> simp [HwAddr.lo, regAddr, be32]

/-- A tag register written back from the tag it holds: itself, or zero where that tag is absent (R33, R34). -/
theorem tagReg_regTag (t : TagReg) : tagReg (regTag t) = if t.present then t else TagReg.zero := by
  obtain ⟨vid, pcp, dei, present⟩ := t
  cases present <;> rfl

/-- Writing a written range's own bytes back changes no read. -/
theorem read_writeBytes_bytes {m : Memory} {n : Nat} (h : Memory.definedBelow m n) (k : Nat) :
    Memory.read (Memory.writeBytes m 0 (Memory.bytes m 0 n)) k = Memory.read m k := by
  rw [read_writeBytes_zero, bytes_length, bytes_getElem?, Nat.zero_add]
  split
  · rename_i hk
    obtain ⟨x, hx⟩ := Option.isSome_iff_exists.1 (h k hk)
    rw [hx, Option.getD_some]
  · rfl

/-- What an answered FRAME_ENCODE without error did: every payload byte was written, and WBUF and WLEN hold what frameEncode
gives for the registers' frame. -/
theorem frameEncode_of_exec_succeeded {s t : State} (h : exec .frameEncode s = .next t) (herr : t.status.err = false) :
    Memory.definedBelow s.pbuf s.plen.toNat ∧ ∃ out, frameEncode (regFrame s) = .ok out ∧ out.length ≤ s.cap.n ∧
      t = succeed { s with wbuf := Memory.writeBytes s.wbuf 0 out, wlen := BitVec.ofNat 16 out.length } := by
  obtain ⟨_, -, -, hfault⟩ | ⟨hwritten, t', ht', hdone⟩ := exec_cases .frameEncode s
  · rw [h] at hfault
    cases hfault
  obtain rfl : t = t' := by rw [h] at ht'; cases ht'; rfl
  cases hdone with
  | error => cases herr
  | tagDecode _ hi | tagEncode _ hi | frameDecode _ hi => cases hi
  | frameEncode out _ hchecks henc _ hcap =>
    refine ⟨fun k hk => hwritten k ?_, out, henc, hcap, rfl⟩
    simpa [examined, hchecks] using hk

/-- The registers' frame is masqueraded exactly when both tags are absent and the EtherType is a TPID value (R111). -/
theorem masqueraded_regFrame_iff (s : State) : (regFrame s).masqueraded ↔
    s.ctag.present = false ∧ s.stag.present = false ∧ (s.etype = 0x8100#16 ∨ s.etype = 0x88A8#16) := by
  simp [Frame.masqueraded, regFrame, regTag]

/-- Settles O31: WBUF holds the encoded frame, which decodes to the frame of the registers, and writing that back leaves
them. -/
theorem registerRoundTrip : Obligations.RegisterRoundTrip := by
  intro s t hm h herr
  obtain ⟨hpayload, out, henc, hcap, rfl⟩ := frameEncode_of_exec_succeeded h herr
  have hdec := frameDecode_of_frameEncode (mt (masqueraded_regFrame_iff s).1 hm) henc
  have hholds : Memory.holds (Memory.writeBytes s.wbuf 0 out) out [] := fun i hi _ => by
    rw [read_writeBytes_zero, if_pos hi]
  refine ⟨_, exec_frameDecode_of_holds_all (b := out) (toNat_ofNat16_of_le_cap hcap) hcap hholds hdec, rfl, rfl,
    hi_regAddr s.dstHi s.dstLo, lo_regAddr s.dstHi s.dstLo, hi_regAddr s.srcHi s.srcLo, lo_regAddr s.srcHi s.srcLo, rfl,
    tagReg_regTag s.ctag, tagReg_regTag s.stag, ?_, read_writeBytes_bytes hpayload⟩
  simp [regFrame]

end Sys2Proof.Machine
end

section
/-! SUPPORT. The life of a command: its issue, the step that takes it up, and the two ways it completes
(42_command_lifecycle.md R116 to R122; 60_exceptions.md R130). -/

namespace Sys2Proof.Machine

/-! ### Issue -/

/-- Settles O34: CMD is accepted when idle and dropped when busy. -/
theorem commandIssue : Obligations.CommandIssue := by
  refine fun s v => ⟨fun hidle => ?_, fun hbusy => ?_⟩
  · rw [busOp_regWrite 0x00 v .cmd s rfl, writeReg_idle .cmd v s hidle]
    rfl
  · exact busOp_regWrite_dropped (r := .cmd) rfl (.inr rfl) hbusy v

/-! ### The engine's step -/

theorem engineStep_of_busy {s : State} (hbusy : s.status.busy = true) : engineStep s = engineCommand s := if_pos hbusy

theorem engineCommand_of_decode {s : State} {i : Instr} (hi : decodeCmd s.pending = some i) :
    engineCommand s = exec i s := by
  simp only [engineCommand, hi]

/-- An illegal word is reported, and nothing is read or written for it (R121). -/
theorem engineCommand_of_illegal {s : State} (hi : decodeCmd s.pending = none) :
    engineCommand s = .next (raiseError s { code := .illegalCommand, ctx := .none }) := by
  simp only [engineCommand, hi]

/-- Settles O5: the engine's step is that report. -/
theorem illegalWordCompletesWithError : Obligations.IllegalWordCompletesWithError :=
  fun _ hbusy hi => (engineStep_of_busy hbusy).trans (engineCommand_of_illegal hi)

/-- The engine's turn is its step, from the state whose turn has been taken off the list (R116). -/
theorem step_of_engine_turn {s : State} {ts : List Turn} (hturn : s.turns = .engine :: ts) :
    step s = engineStep { s with turns := ts } := by
  simp only [step, takeTurn, hturn]

/-- With no turn listed the engine takes up a command in progress (log entry 6). -/
theorem step_of_no_turn {s : State} (hbusy : s.status.busy = true) (hnone : s.turns = []) : step s = engineCommand s := by
  simp only [step, takeTurn, hnone]
  exact (if_pos hbusy).trans (engineStep_of_busy hbusy)

/-- Settles O3: the engine's step is the command PENDING decodes to, and passes when BUSY = 0. -/
theorem stepRunsTheDecodedCommand : Obligations.StepRunsTheDecodedCommand := by
  refine fun s i hi _ => ⟨fun hbusy ts hturn => ?_, fun hbusy hnone => ?_, fun hidle ts hturn => ?_⟩
  · calc step s = engineStep { s with turns := ts } := step_of_engine_turn hturn
      _ = engineCommand { s with turns := ts } := engineStep_of_busy hbusy
      _ = exec i { s with turns := ts } := engineCommand_of_decode hi
  · exact (step_of_no_turn hbusy hnone).trans (engineCommand_of_decode hi)
  · exact (step_of_engine_turn hturn).trans (if_neg (by simp [hidle]))

/-! ### Completion -/

/-- The two ways a command completes: successfully, or with an error it can raise, of which only STATUS tells (R119,
R130). -/
theorem Completed.outcome {i : Instr} {s t : State} (h : Completed i s t) :
    t.status = s.status.succeed ∨ ∃ e : CodecError, e.raisedBy (some i) ∧ t = raiseError s e := by
  cases h
  case error e he => exact .inr ⟨e, he, rfl⟩
  all_goals exact .inl rfl

/-- The same of the engine's step, where an illegal word is one more error. -/
theorem engineCommand_outcome {s t : State} (h : engineCommand s = .next t) :
    t.status = s.status.succeed ∨ ∃ e : CodecError, e.raisedBy (decodeCmd s.pending) ∧ t = raiseError s e := by
  obtain ⟨i, hi, hdone⟩ | ⟨hi, rfl⟩ := engineCommand_cases s t h
  · rw [hi]
    exact hdone.outcome
  · exact .inr ⟨_, hi ▸ illegalCommand_raisedBy, rfl⟩

/-- With every byte below the lengths written no command faults (R120, R150). -/
theorem exec_ne_fault {s : State} (hw : Memory.definedBelow s.wbuf s.wlen.toNat)
    (hp : Memory.definedBelow s.pbuf s.plen.toNat) (i : Instr) (r : Fault) : exec i s ≠ .fault r := by
  intro h
  obtain ⟨k, ⟨-, -, hread, hwlen, hk⟩ | ⟨-, -, hread, -, -, hk, -⟩ | ⟨-, -, hread, -, hk⟩⟩ :=
    faultOnlyOnUnwrittenByte i s r h
  · simpa [hread] using hw k (by simpa [hwlen] using hk)
  · simpa [hread] using hw k hk
  · simpa [hread] using hp k hk

/-- Settles O18: a command that does not fault completes in one of two ways. -/
theorem everyCommandCompletes : Obligations.EveryCommandCompletes := by
  intro i s hw hp
  obtain ⟨_, -, -, hfault⟩ | ⟨-, t, ht, hdone⟩ := exec_cases i s
  · exact absurd hfault (exec_ne_fault hw hp i _)
  · exact ⟨t, ht, hdone.outcome.imp_right fun ⟨e, _, he⟩ => ⟨e.code, e.ctx, he⟩⟩

/-! ### STATUS after a completion -/

/-- STATUS as a successful completion leaves it where the issue has cleared the error report (R119). -/
theorem status_word_succeed {st : Status} (herr : st.err = false) (hcode : st.errCode = none) (hctx : st.errCtx = .none) :
    st.succeed.word = 0x00000002#32 ||| (if st.viol then 0x00010000#32 else 0#32) := by
  have hst : st.succeed =
      { busy := false, done := true, err := false, errCode := none, errCtx := .none, viol := st.viol } := by
    simp only [Status.succeed, herr, hcode, hctx]
  rw [hst]
  cases st.viol <;> rfl

/-- Settles O35: a success keeps the clear report the invariant gives while BUSY = 1, and an error writes its own. -/
theorem completionStatusWord : Obligations.CompletionStatusWord := by
  intro s t hinv hbusy h
  rw [engineStep_of_busy hbusy] at h
  obtain hsucceed | ⟨e, ⟨w, hw⟩, rfl⟩ := engineCommand_outcome h
  · obtain ⟨-, herr⟩ := hinv.status.busy_clears hbusy
    have hcode := hinv.status.code_iff.1 herr
    have hctx := hinv.status.ctx_none herr
    rw [hsucceed]
    exact ⟨rfl, rfl, rfl, .inl ⟨herr, hcode, hctx, status_word_succeed herr hcode hctx⟩⟩
  · exact ⟨rfl, rfl, rfl, .inr ⟨rfl, e.code, e.ctx, w, hw, rfl, rfl, errorReports_word _ _ _ _ hw s.status.viol⟩⟩

/-! ### The step is taken -/

/-- A register write leaves the schedule (log entry 6). -/
theorem store_turns (r : Reg) (v : Word) (s : State) : (r.store v s).turns = s.turns := by cases r <;> rfl

theorem BusStep.turns_eq {s t : State} {o : BusOp} (h : BusStep s o t) : t.turns = s.turns := by
  cases h with
  | read => rfl
  | dropReg => rfl
  | dropBuf => rfl
  | store off v r => exact store_turns r v s
  | write b i x => exact setBuf_turns s b _

theorem HostDid.turns_eq {s t : State} (h : HostDid s t) : t.turns = s.turns := by
  cases h with
  | idle => rfl
  | poll => rfl
  | op o rest _ _ hbus => exact hbus.turns_eq

/-- A host turn while BUSY = 1 takes itself off the list and leaves the command in progress as it was (R58). -/
theorem frozen_of_host_turn {s t : State} {ts : List Turn} (hbusy : s.status.busy = true) (hturn : s.turns = .host :: ts)
    (h : step s = .next t) : s.Frozen t ∧ t.turns = ts := by
  rw [step, takeTurn, hturn] at h
  have hhost := hostDid_of_hostStep _ t h
  obtain ⟨hop, hpending, hkept⟩ := hhost.frozen hbusy
  exact ⟨⟨hop, hpending, hkept⟩, hhost.turns_eq⟩

/-- A run that is answered is an answered first step and an answered run from there. -/
theorem exists_step_of_run {k : Nat} {s t : State} (h : Host.Core.run core (k + 1) s = .next t) :
    ∃ u, step s = .next u ∧ Host.Core.run core k u = .next t := by
  cases hstep : core.step s with
  | next u => exact ⟨u, hstep, (run_succ k s u hstep).symm.trans h⟩
  | fault r | refused r => simp [Host.Core.run, hstep] at h

/-- Settles O57: by induction on the turns. Each host turn before the engine's leaves the command as it was at issue, and
when the turns are used up the engine moves. -/
theorem engineStepIsEventuallyTaken : Obligations.EngineStepIsEventuallyTaken := by
  intro s t hbusy hreset hrun
  induction hturns : s.turns generalizing s with
  | nil => exact ⟨0, s, s.turns, Nat.zero_le _, rfl, hbusy, rfl, rfl, step_of_no_turn hbusy hturns⟩
  | cons a ts ih =>
    cases a with
    | host =>
      rw [hturns] at hreset hrun
      obtain ⟨s', hstep, hrun'⟩ := exists_step_of_run hrun
      obtain ⟨⟨hop, hpending, hbusy'⟩, hts⟩ := frozen_of_host_turn hbusy hturns hstep
      have hreset' : .reset ∉ s'.turns := hts ▸ List.not_mem_of_not_mem_cons hreset
      obtain ⟨k, u, us, hk, hku, hubusy, hup, huop, hu⟩ := ih s' hbusy' hreset' (hts ▸ hrun') hts
      exact ⟨k + 1, u, us, Nat.succ_le_succ hk, (run_succ k s s' hstep).trans hku, hubusy, hup.trans hpending,
        huop.trans hop, hu⟩
    | engine =>
      exact ⟨0, s, ts, Nat.zero_le _, rfl, hbusy, rfl, rfl,
        (step_of_engine_turn hturns).trans (engineStep_of_busy hbusy)⟩
    | reset => exact absurd (hturns ▸ List.mem_cons_self) hreset

end Sys2Proof.Machine
end

section
/-! SUPPORT. What an error completion leaves unchanged (60_exceptions.md R130, R138). -/

namespace Sys2Proof.Machine

/-- An engine step that ends with ERR = 1 is an error completion: a success would have kept the ERR = 0 that the invariant
gives while BUSY = 1 (R20, R119). -/
theorem exists_raiseError_of_engineStep_err {s t : State} (hinv : s.Inv) (hbusy : s.status.busy = true)
    (h : engineStep s = .next t) (herr : t.status.err = true) : ∃ e, t = raiseError s e := by
  rw [engineStep_of_busy hbusy] at h
  obtain hsucceed | ⟨e, -, he⟩ := engineCommand_outcome h
  · have hkept : t.status.err = s.status.err := by rw [hsucceed]; rfl
    obtain ⟨-, hclear⟩ := hinv.status.busy_clears hbusy
    simp [hkept, hclear] at herr
  · exact ⟨e, he⟩

/-- Settles O36: the step is an error completion, and that writes STATUS alone. -/
theorem errorCompletionChangesOnlyStatus : Obligations.ErrorCompletionChangesOnlyStatus := by
  intro s t hinv hbusy h herr
  obtain ⟨e, rfl⟩ := exists_raiseError_of_engineStep_err hinv hbusy h herr
  exact ⟨e.code, e.ctx, rfl⟩

end Sys2Proof.Machine
end

section
/-! SUPPORT. The bytes no length covers: those of WBUF at or above WLEN and of PBUF at or above PLEN
(70_reset_and_hazards.md R158). -/

namespace Sys2Proof.Machine

/-- Two states that differ in bytes no length covers at most (R158). -/
structure SameButStale (s₁ s₂ : State) : Prop where
  regs : s₂ = { s₁ with wbuf := s₂.wbuf, pbuf := s₂.pbuf }
  wbuf : ∀ k, k < s₁.wlen.toNat → Memory.read s₂.wbuf k = Memory.read s₁.wbuf k
  pbuf : ∀ k, k < s₁.plen.toNat → Memory.read s₂.pbuf k = Memory.read s₁.pbuf k

/-- No command reads a byte no length covers (R47, R80). -/
theorem SameButStale.sameReads {s₁ s₂ : State} (h : SameButStale s₁ s₂) (i : Instr) : sameReads i s₁ s₂ := by
  obtain ⟨hregs, hwbuf, hpbuf⟩ := h
  rw [hregs]
  cases i with
  | tagDecode => exact ⟨rfl, fun k hk => (hwbuf k hk).symm⟩
  | tagEncode => exact ⟨rfl, rfl, rfl⟩
  | frameDecode => exact ⟨rfl, fun k hk => (hwbuf k hk).symm⟩
  | frameEncode => exact ⟨rfl, rfl, rfl, rfl, rfl, rfl, rfl, rfl, fun k hk => (hpbuf k hk).symm⟩

/-- Bytes no length covers have no part in a command's answer. -/
theorem SameButStale.sameAnswer {s₁ s₂ : State} (h : SameButStale s₁ s₂) (i : Instr) :
    SameAnswer (some i) s₁ s₂ (exec i s₁) (exec i s₂) :=
  sameAnswer_exec (by rw [h.regs]) (h.sameReads i)

/-- A command that succeeds writes every byte its new length covers, so what no length covers stays the only difference. -/
theorem SameButStale.succeed_put {s₁ s₂ : State} (h : SameButStale s₁ s₂) {i : Instr} {r : Result i}
    (hr : computed i s₁ = .ok r) : SameButStale (succeed (put i r s₁)) (succeed (put i r s₂)) := by
  have hwrites := sameWrites_put hr s₂ s₁
  obtain ⟨hregs, hwbuf, hpbuf⟩ := h
  rw [hregs] at hwrites ⊢
  cases i with
  | tagDecode => exact ⟨rfl, hwbuf, hpbuf⟩
  | tagEncode =>
    obtain ⟨-, hwritten⟩ := hwrites
    exact ⟨rfl, hwritten, hpbuf⟩
  | frameDecode =>
    obtain ⟨-, -, -, -, -, -, -, -, hwritten⟩ := hwrites
    exact ⟨rfl, hwbuf, hwritten⟩
  | frameEncode =>
    obtain ⟨-, hwritten⟩ := hwrites
    exact ⟨rfl, hwritten, hpbuf⟩

/-- Settles O22: the replaced bytes are none a command reads, and each kind of answer leaves them the only difference. -/
theorem staleBytesNeverInfluence : Obligations.StaleBytesNeverInfluence := by
  intro i s w p hw hp
  have hstale : SameButStale s { s with wbuf := w, pbuf := p } := ⟨rfl, hw, hp⟩
  have h := hstale.sameAnswer i
  refine ⟨h.fault_iff, fun t ht => ?_⟩
  rw [ht] at h
  generalize exec i { s with wbuf := w, pbuf := p } = a at h
  cases h with
  | error e => exact ⟨_, rfl, rfl, hw, hp⟩
  | put _ hi r hr =>
    cases hi
    obtain ⟨hregs, hwbuf, hpbuf⟩ := hstale.succeed_put hr
    exact ⟨_, rfl, hregs, hwbuf, hpbuf⟩

end Sys2Proof.Machine
end

section
/-! SUPPORT. A command whose result depends on an unwritten byte faults (70_reset_and_hazards.md R150;
93_implementation_defined.md U3; log entry 4). -/

namespace Sys2Proof.Machine

/-- FRAME_DECODE examines the TPID of every sequence long enough to have one, whatever its layout (R79, R98). -/
theorem tpid_mem_frameBytesExamined {b : List Byte} {k : Nat} (hlen : 14 ≤ b.length) (hk : k = 12 ∨ k = 13) :
    k ∈ frameBytesExamined b := by
  rw [frameBytesExamined, if_neg (Nat.not_lt.2 hlen)]
  have hpair : k ∈ [12, 13] := by simpa using hk
  split
  · exact hpair
  split
  · split
    · exact hpair
    · exact List.mem_append_left _ (List.mem_range.2 (by omega))
  · exact List.mem_range.2 (by omega)

/-- FRAME_DECODE examines every byte of a sequence as long as its tag depth needs, but for the inner TPID of a QinQ frame
(R97, R99). -/
theorem mem_frameBytesExamined_of_layout {b : List Byte} {k : Nat} (hlen : 14 ≤ b.length) (hk : k < b.length)
    (hcustomer : candidate b = tpidCustomer → 18 ≤ b.length)
    (hservice : candidate b = tpidService → 22 ≤ b.length ∧ k ≠ 16 ∧ k ≠ 17) : k ∈ frameBytesExamined b := by
  rw [frameBytesExamined, if_neg (Nat.not_lt.2 hlen), if_neg fun h => Nat.not_lt.2 (hcustomer h.1) h.2]
  split
  · rename_i hcand
    obtain ⟨hdepth, hinner⟩ := hservice hcand
    rw [if_neg (Nat.not_lt.2 hdepth), List.mem_append, List.mem_range, List.mem_range'_1]
    omega
  · exact List.mem_range.2 hk

/-- Where an unwritten byte is one the result of FRAME_DECODE depends on, an unwritten byte is examined: one of the TPID, or
else, the layout being known, that byte itself. -/
theorem exists_examined_of_decodeNeeds {s : State} {k : Nat} (h : s.decodeNeeds k) (hread : Memory.read s.wbuf k = none) :
    ∃ j ∈ (examined .frameDecode s).2, Memory.read s.wbuf j = none := by
  obtain ⟨h14, hcap, hk, hcustomer, hservice⟩ := h
  rw [examined, if_neg (Nat.not_lt.2 hcap)]
  have hlen := bytes_length s.wbuf 0 s.wlen.toNat
  cases h12 : Memory.read s.wbuf 12 with
  | none => exact ⟨12, tpid_mem_frameBytesExamined (by omega) (.inl rfl), h12⟩
  | some x =>
  cases h13 : Memory.read s.wbuf 13 with
  | none => exact ⟨13, tpid_mem_frameBytesExamined (by omega) (.inr rfl), h13⟩
  | some y =>
  have hcand := candidate_bytes s.wbuf x y s.wlen.toNat h14 h12 h13
  refine ⟨k, mem_frameBytesExamined_of_layout (by omega) (by omega) (fun hc => ?_) (fun hc => ?_), hread⟩
  · obtain ⟨rfl, rfl⟩ := (be16_inj x y 0x81 0x00).1 (hcand.symm.trans hc)
    exact hlen.symm ▸ hcustomer h12 h13
  · obtain ⟨rfl, rfl⟩ := (be16_inj x y 0x88 0xA8).1 (hcand.symm.trans hc)
    exact hlen.symm ▸ hservice h12 h13

/-- Settles O20: each command examines an unwritten byte, and so faults. -/
theorem unwrittenByteFaults : Obligations.UnwrittenByteFaults := by
  intro s k
  refine ⟨fun hwlen hk hread => ?_, fun hneeds hread => ?_, fun hok hk hread => ?_⟩
  · have hcap : ¬ s.cap.n < s.wlen.toNat := by
      have hmin := s.cap.lo
      simp [hwlen]; omega
    refine exec_fault_of_unwritten .tagDecode s k ?_ hread
    rw [examined, if_neg hcap, hwlen]
    exact (List.mem_range.2 hk : k ∈ List.range 2)
  · obtain ⟨j, hj, hunwritten⟩ := exists_examined_of_decodeNeeds hneeds hread
    exact exec_fault_of_unwritten .frameDecode s j hj hunwritten
  · have hchecks := (frameEncodeChecks_ok_iff_encodable s).2 hok
    refine exec_fault_of_unwritten .frameEncode s k ?_ hread
    simpa [examined, hchecks] using hk

end Sys2Proof.Machine
end

section
/-! SUPPORT. The block right after reset, and each command's first run (70_reset_and_hazards.md R148 to R154). -/

namespace Sys2Proof.Machine

/-! ### The state -/

/-- CAPS stands at 0x0C alone (R17). -/
theorem eq_caps_iff {off : Nat} {r : Reg} (h : regAt off = some r) : r = .caps ↔ off = 0x0C := by
  constructor
  · rintro rfl
    exact regAt_offset off .caps h nofun
  · rintro rfl
    cases h
    rfl

/-- After reset the register at an offset reads 0, but for CAPS at 0x0C (R149). -/
theorem value_resetWith_of_regAt {off : Nat} {r : Reg} (h : regAt off = some r) (cap : BufCap) :
    r.value (State.resetWith cap) = if off = 0x0C then (0x01#32 <<< 16) ||| BitVec.ofNat 32 cap.n else 0x00000000#32 := by
  simp only [value_resetWith, eq_caps_iff h, capsWord]

@[simp] theorem buf_resetWith (cap : BufCap) (b : Buf) : (State.resetWith cap).buf b = [] := by cases b <;> rfl

@[simp] theorem buf_resetStep (s : State) (b : Buf) : (resetStep s).buf b = [] := by cases b <;> rfl

/-- A reset step leaves every register as it reads after reset (R148). -/
theorem value_resetStep (r : Reg) (s : State) : r.value (resetStep s) = r.value (State.resetWith s.cap) := by
  cases r <;> rfl

theorem step_of_reset_turn {s : State} {ts : List Turn} (hturn : s.turns = .reset :: ts) :
    step s = .next (resetStep { s with turns := ts }) := by
  rw [step, takeTurn, hturn]

/-- Settles O49: the step's next state holds what the block holds after reset at the same capacity. -/
theorem resetStepClearsTheBlock : Obligations.ResetStepClearsTheBlock := by
  intro s ts hturn
  refine ⟨_, step_of_reset_turn hturn, rfl, rfl, rfl, rfl, fun b k => ?_, fun off r hoff => ?_⟩
  · rw [buf_resetStep, read_nil]
  · rw [value_resetStep, value_resetWith_of_regAt hoff]

/-- Settles O50: register by register at its offset, and both buffers empty. -/
theorem stateAfterReset : Obligations.StateAfterReset := by
  refine fun cap => ⟨fun off r hoff => value_resetWith_of_regAt hoff cap, rfl, rfl, fun b k => ?_⟩
  rw [buf_resetWith, read_nil]

/-! ### The commands -/

/-- STATUS after the first command's success: DONE alone (R119, R149). -/
theorem status_word_first_succeed : Status.reset.issue.succeed.word = 0x00000002#32 := by decide

/-- STATUS after the first FRAME_DECODE, of a frame too short for its header (R131). -/
theorem status_word_first_frameTooShort :
    (Status.reset.issue.fail ⟨.frameTooShort, .none⟩).word = 0x00000016#32 := by decide

/-- STATUS after the first TAG_DECODE, of a tag without bytes (R132). -/
theorem status_word_first_malformedTag :
    (Status.reset.issue.fail ⟨.malformedTag, .none⟩).word = 0x00000026#32 := by decide

/-- A buffer written from empty with `n` zero bytes from index 0. -/
theorem read_of_zeros {m : Memory} {n : Nat} {bs : List Byte} (hbs : bs = List.replicate n 0)
    (h : ∀ k, Memory.read m k = if k < n then bs[k]? else none) (k : Nat) :
    Memory.read m k = if k < n then some 0x00 else none := by
  rw [h, hbs, List.getElem?_replicate]
  split <;> rfl

/-- Settles O51: the lengths are 0, which both decodes refuse; the fields are 0, which both encodes write out. -/
theorem commandsStraightAfterReset : Obligations.CommandsStraightAfterReset := by
  refine fun cap => ⟨?_, ?_, ?_, ?_⟩
  · obtain ⟨-, hshort, -⟩ := frameDecodeErrors (issue (State.resetWith cap) (encode .frameDecode))
    exact ⟨_, hshort (Nat.zero_le _) (show (0 : Half).toNat < 14 by decide), status_word_first_frameTooShort, rfl⟩
  · obtain ⟨-, hmalformed⟩ := tagDecodeErrors (issue (State.resetWith cap) (encode .tagDecode))
    exact ⟨_, hmalformed (Nat.zero_le _) (show (0 : Half) ≠ 2 by decide), status_word_first_malformedTag, rfl⟩
  · obtain ⟨t, hexec, ht, hread⟩ := tagEncodeResult (issue (State.resetWith cap) (encode .tagEncode)) 0 rfl
    have hbody : tagBody 0 false 0 = List.replicate 2 0 := by decide
    exact ⟨t, hexec, by rw [ht]; exact status_word_first_succeed, by rw [ht], read_of_zeros hbody hread⟩
  · have hout : List.replicate 14 0 = (regAddr 0 0).bytes ++ (regAddr 0 0).bytes ++ [0, 0] ++ [] := by decide
    have hfits : (List.replicate 14 (0 : Byte)).length ≤ cap.n := Nat.le_trans (by decide) cap.lo
    obtain ⟨t, hexec, ht, hread⟩ := frameEncodeUntaggedResult (issue (State.resetWith cap) (encode .frameEncode))
      (regAddr 0 0) (regAddr 0 0) 0 0 [] (List.replicate 14 0) (hi_regAddr 0 0).symm (lo_regAddr 0 0).symm
      (hi_regAddr 0 0).symm (lo_regAddr 0 0).symm (show (0 : Half) = be16 0 0 by decide) rfl rfl rfl nofun hout hfits
    exact ⟨t, hexec, by rw [ht]; exact status_word_first_succeed, by rw [ht]; rfl, read_of_zeros rfl hread⟩

end Sys2Proof.Machine
end

section
/-! SUPPORT. A command word placed for the next step (log entry 6). -/

namespace Sys2Proof.Machine

/-- A word of 32 bits is placed whole: it is issued, with the engine's turn first (R117). -/
theorem withFetchWord_toNat (s : State) (w : Word) :
    s.withFetchWord 32 w.toNat = { issue s w with turns := .engine :: s.turns } := by
  rw [State.withFetchWord, Nat.mod_eq_of_lt w.isLt, BitVec.ofNat_toNat, BitVec.setWidth_eq]

/-- The step after a placed word is the engine's, on the state of the word's issue (R116, R118). -/
theorem step_withFetchWord (s : State) (w : Word) : step (s.withFetchWord 32 w.toNat) = engineCommand (issue s w) := by
  rw [withFetchWord_toNat]
  calc step { issue s w with turns := .engine :: s.turns } = engineStep (issue s w) := step_of_engine_turn rfl
    _ = engineCommand (issue s w) := engineStep_of_busy rfl

/-- Settles O4: the next step is the engine's on the issued word, which decodes to its command. -/
theorem fetchedWordRunsNext : Obligations.FetchedWordRunsNext := by
  intro s i
  have hdecode : decodeCmd (encode i) = some i := (decodeCmd_eq_some_iff (encode i) i).2 rfl
  calc step (s.withFetchWord 32 (encode i).toNat) = engineCommand (issue s (encode i)) := step_withFetchWord s (encode i)
    _ = exec i (issue s (encode i)) := engineCommand_of_decode hdecode

end Sys2Proof.Machine
end
